-- ==== Sys2Proof/Word.lean ====
section
/-! DEFINITION. The machine's word types: a byte, a pixel counter, a Pixel (spec/00_scope.md R7, R8, R13, R16). -/

namespace Sys2Proof

/-- A byte is 8 bits, bit 7 the most significant (R13). Arithmetic on it wraps (R14). -/
abbrev Byte := BitVec 8

/-- `px_count` and `px_target`: `COUNT_WIDTH` = 64 bits (R8, R29, R30). -/
abbrev Count := BitVec 64

/-- "Four 8-bit unsigned channels (r, g, b, a)"; two pixels are equal when all four channels are (R16). -/
structure Pixel where
  r : Byte
  g : Byte
  b : Byte
  a : Byte
deriving DecidableEq, Repr

/-- The "default/starting pixel before any decode", opaque black (R21). -/
def Pixel.start : Pixel := ⟨0, 0, 0, 255⟩

/-- The reset value of a cache slot, transparent black (R22). -/
def Pixel.zero : Pixel := ⟨0, 0, 0, 0⟩

/-- The pixel cache: 64 slots, each a whole Pixel (R22); an indexed register file (R15). -/
abbrev Cache := Vector Pixel 64

/-- The scratch buffer: four bytes (R28). -/
abbrev Scratch := Vector Byte 4

end Sys2Proof
end

