-- ==== Sys2Proof/Syntax.lean ====
section
/-! DEFINITION. The instruction set QOI-OPS/6 and the five header items: one constructor per row of spec/opcode_table.json. -/

namespace Sys2Proof

/-- One constructor per row of the opcode table. Operands are the STORED fields of the stream (biases not yet removed). -/
inductive Instr
  /-- RGB: three operand bytes (R80). -/
  | rgb (r g b : Byte)
  /-- RGBA: four operand bytes (R81). -/
  | rgba (r g b a : Byte)
  /-- INDEX: the cache slot number (R76). -/
  | index (i : BitVec 6)
  /-- DIFF: the stored red, green, blue deltas, each biased by 2 (R77). -/
  | diff (dr dg db : BitVec 2)
  /-- LUMA: the stored green delta, biased by 32, and the stored red-minus-green and blue-minus-green, each biased by 8 (R78). -/
  | luma (dg : BitVec 6) (drdg dbdg : BitVec 4)
  /-- RUN: the stored run length, that is length minus 1, 0..61 (R79). -/
  | run (n : BitVec 6)
  /-- HDR_MAGIC: the byte `b` at magic position `c` (R122 tests and acts on every magic byte by itself). -/
  | hdrMagic (c : Fin 4) (b : Byte)
  /-- HDR_WIDTH: the four width bytes, big-endian (R124). -/
  | hdrWidth (w : BitVec 32)
  /-- HDR_HEIGHT: the four height bytes, big-endian (R126). -/
  | hdrHeight (h : BitVec 32)
  /-- HDR_CHANNELS: the byte at offset 12, legal or not (R127). -/
  | hdrChannels (b : Byte)
  /-- HDR_COLORSPACE: the byte at offset 13, legal or not (R129). -/
  | hdrColorspace (b : Byte)
deriving DecidableEq, Repr

/-- The items of the stream. Header items are told by their position in the stream, never by their bits (R73, R82);
`opcode` is everything from offset 14 on (R51). -/
inductive Item
  | magic
  | width
  | height
  | channels
  | colorspace
  | opcode
deriving DecidableEq, Repr

/-- The six opcodes (R71). -/
inductive Opcode
  | rgb
  | rgba
  | index
  | diff
  | luma
  | run
deriving DecidableEq, Repr

end Sys2Proof
end

