-- ==== Sys2Proof/WellFormed.lean ====
section
/-! DEFINITION. Which instructions the stream can hold: the operand ranges of spec/30_encoding.md. -/

namespace Sys2Proof

/-- The one range the field widths do not already give: a stored run length is 0..61, for 62 and 63 are the RGB and RGBA tags
(R74, R79). A header byte of any value is a well-formed item: a wrong one raises an error when it runs (R122, R127, R129). -/
def Instr.wf : Instr → Bool
  | .rgb _ _ _ => true
  | .rgba _ _ _ _ => true
  | .index _ => true
  | .diff _ _ _ => true
  | .luma _ _ _ => true
  | .run n => decide (n.toNat ≤ 61)
  | .hdrMagic _ _ => true
  | .hdrWidth _ => true
  | .hdrHeight _ => true
  | .hdrChannels _ => true
  | .hdrColorspace _ => true

end Sys2Proof
end

