-- ==== Sys2Proof/Decode.lean ====
section
/-! DEFINITION. The decoder, total on any bytes, and the encoder (spec/30_encoding.md R70 to R82, spec/40_header.md R91). -/

namespace Sys2Proof

/-- The magic bytes `q`, `o`, `i`, `f` (R51). -/
def magicByte (c : Fin 4) : Byte :=
  match c with
  | 0 => 0x71
  | 1 => 0x6F
  | 2 => 0x69
  | 3 => 0x66

/-- The four magic bytes in stream order (R51). -/
def magicBytes : List Byte := [0x71, 0x6F, 0x69, 0x66]

/-- `v[hi:lo]` of a byte, as a field of `w` bits from bit `lo` up (R13). -/
def field (t : Byte) (lo w : Nat) : BitVec w := t.extractLsb' lo w

/-- Four bytes, the first the most significant (R52). -/
def be32 (b0 b1 b2 b3 : Byte) : BitVec 32 := b0 ++ b1 ++ b2 ++ b3

/-- The byte of `v` at big-endian position `i`, 0 the most significant (R52). -/
def be32Byte (v : BitVec 32) (i : Nat) : Byte := v.extractLsb' (24 - 8 * i) 8

/-- "`0xFE` (RGB)", "`0xFF` (RGBA)", "else inspect top 2 bits", in this order (R71). -/
def classify (t : Byte) : Opcode :=
  if t = 0xFE then .rgb
  else if t = 0xFF then .rgba
  else if field t 6 2 = 0 then .index
  else if field t 6 2 = 1 then .diff
  else if field t 6 2 = 2 then .luma
  else .run

/-- How many operand bytes follow the tag (R71). -/
def oplen : Opcode → Nat
  | .rgb => 3
  | .rgba => 4
  | .luma => 1
  | .index => 0
  | .diff => 0
  | .run => 0

/-- Why bytes are no instruction. -/
inductive Reject
  /-- The tag is no multi-byte opcode's and yet bytes follow it as its operands (R136). -/
  | unknownTag (tag : Byte)
  /-- More bytes are counted than the item has (R136). -/
  | byteCountOverrun
deriving DecidableEq, Repr

/-- What the bytes taken of one item are: a whole instruction, one that wants `n` more bytes, or none. -/
inductive Decoded
  | done (i : Instr)
  | needMore (n : Nat)
  | reject (why : Reject)
deriving DecidableEq, Repr

/-- `got` operand bytes where the opcode of tag `t` has `len` others: more are awaited, or there are too many (R136). -/
def notWhole (t : Byte) (len got : Nat) : Decoded :=
  if got < len then .needMore (len - got)
  else if len = 0 then .reject (.unknownTag t)
  else .reject .byteCountOverrun

/-- The tag and the operand bytes of one opcode (R71, R76 to R81). -/
def decodeTag (t : Byte) (ops : List Byte) : Decoded :=
  match classify t with
  | .rgb =>
    match ops with
    | [r, g, b] => .done (.rgb r g b)
    | _ => notWhole t 3 ops.length
  | .rgba =>
    match ops with
    | [r, g, b, a] => .done (.rgba r g b a)
    | _ => notWhole t 4 ops.length
  | .index =>
    match ops with
    | [] => .done (.index (field t 0 6))
    | _ => notWhole t 0 ops.length
  | .diff =>
    match ops with
    | [] => .done (.diff (field t 4 2) (field t 2 2) (field t 0 2))
    | _ => notWhole t 0 ops.length
  | .luma =>
    match ops with
    | [n] => .done (.luma (field t 0 6) (field n 4 4) (field n 0 4))
    | _ => notWhole t 1 ops.length
  | .run =>
    match ops with
    | [] => .done (.run (field t 0 6))
    | _ => notWhole t 0 ops.length

/-- The bytes of one opcode, tag first (R70). -/
def decodeOpcode : List Byte → Decoded
  | [] => .needMore 1
  | t :: ops => decodeTag t ops

/-- The magic bytes taken so far, the last one not yet tested; every earlier one passed its test (R122). -/
def decodeMagic : List Byte → Decoded
  | [] => .needMore 1
  | [b] => .done (.hdrMagic 0 b)
  | [m0, b] => if [m0] = magicBytes.take 1 then .done (.hdrMagic 1 b) else .reject .byteCountOverrun
  | [m0, m1, b] => if [m0, m1] = magicBytes.take 2 then .done (.hdrMagic 2 b) else .reject .byteCountOverrun
  | [m0, m1, m2, b] => if [m0, m1, m2] = magicBytes.take 3 then .done (.hdrMagic 3 b) else .reject .byteCountOverrun
  | _ => .reject .byteCountOverrun

/-- A four-byte big-endian header field (R82). -/
def decodeWord (mk : BitVec 32 → Instr) : List Byte → Decoded
  | [b0, b1, b2, b3] => .done (mk (be32 b0 b1 b2 b3))
  | bs => if bs.length < 4 then .needMore (4 - bs.length) else .reject .byteCountOverrun

/-- A one-byte header field (R82). -/
def decodeByte (mk : Byte → Instr) : List Byte → Decoded
  | [b] => .done (mk b)
  | [] => .needMore 1
  | _ => .reject .byteCountOverrun

/-- The decoder: the bytes taken of one item, first byte first. -/
def decode : Item → List Byte → Decoded
  | .magic, bs => decodeMagic bs
  | .width, bs => decodeWord .hdrWidth bs
  | .height, bs => decodeWord .hdrHeight bs
  | .channels, bs => decodeByte .hdrChannels bs
  | .colorspace, bs => decodeByte .hdrColorspace bs
  | .opcode, bs => decodeOpcode bs

/-- The item an instruction stands for. -/
def Instr.item : Instr → Item
  | .rgb _ _ _ => .opcode
  | .rgba _ _ _ _ => .opcode
  | .index _ => .opcode
  | .diff _ _ _ => .opcode
  | .luma _ _ _ => .opcode
  | .run _ => .opcode
  | .hdrMagic _ _ => .magic
  | .hdrWidth _ => .width
  | .hdrHeight _ => .height
  | .hdrChannels _ => .channels
  | .hdrColorspace _ => .colorspace

/-- The bytes of an instruction in stream order, written from the layouts of R76 to R82. -/
def encode : Instr → List Byte
  | .rgb r g b => [0xFE, r, g, b]
  | .rgba r g b a => [0xFF, r, g, b, a]
  | .index i => [(0#2 ++ i : BitVec 8)]
  | .diff dr dg db => [(1#2 ++ dr ++ dg ++ db : BitVec 8)]
  | .luma dg drdg dbdg => [(2#2 ++ dg : BitVec 8), (drdg ++ dbdg : BitVec 8)]
  | .run n => [(3#2 ++ n : BitVec 8)]
  | .hdrMagic c b => magicBytes.take c.val ++ [b]
  | .hdrWidth w => [be32Byte w 0, be32Byte w 1, be32Byte w 2, be32Byte w 3]
  | .hdrHeight h => [be32Byte h 0, be32Byte h 1, be32Byte h 2, be32Byte h 3]
  | .hdrChannels b => [b]
  | .hdrColorspace b => [b]

/-! ### Words numbered as spec/opcode_table.json numbers them -/

/-- The low `n` bytes of `w`, least significant first. -/
def lowBytes (w : Nat) : Nat → List Byte
  | 0 => []
  | n + 1 => BitVec.ofNat 8 w :: lowBytes (w / 256) n

/-- The item and the bytes, in stream order, that a table word of `nbits` bits stands for.
An opcode row has its first byte in bits 7..0. The 32-bit rows of the header give their first byte in bits 31..24
(HDR_MAGIC: match 0x716F6966; the magic is known in both orders), and no opcode row but RGB has 32 bits. See log 7. -/
def tableItem (nbits w : Nat) : Item × List Byte :=
  let v := w % 2 ^ nbits
  if nbits = 32 ∧ (v = 0x716F6966 ∨ v = 0x66696F71) then (.magic, magicBytes)
  else if nbits = 32 ∧ v % 256 ≠ 0xFE then (.width, (lowBytes v 4).reverse)
  else (.opcode, (lowBytes v 5).take (1 + oplen (classify (BitVec.ofNat 8 v))))

/-- The instruction the decoder reads from a table word. -/
def decodeTableWord (nbits w : Nat) : Option Instr :=
  match decode (tableItem nbits w).1 (tableItem nbits w).2 with
  | .done i => some i
  | .needMore _ => none
  | .reject _ => none

end Sys2Proof
end

