-- ==== Sys2Proof/Config.lean ====
section
/-! DEFINITION. What this hardware fixes (the parameters of spec/00_scope.md R8) and the free values the spec leaves unspecified. -/

namespace Sys2Proof

/-- What a RUN longer than the pixels still owed does (D5): `clamp` drops the excess, `emitAll` emits every pixel of the run. -/
inductive RunOverrun
  | clamp
  | emitAll
deriving DecidableEq, Repr

/-- `RUN_OVERRUN_POLICY` of this hardware (R8, D5). -/
def Config.runOverrun : RunOverrun := .clamp

/-- `INDEX_WRITES_CACHE` of this hardware (R8, R58, D7). -/
def Config.indexWritesCache : Bool := true

/-- A value the spec leaves unspecified: the bits of part `part` (one number per register) at draw `draw`.
It has no body, so nothing can be proved of its value. Used for the decoder registers after an error
(R176: "a model shall treat every decoder register other than `phase` as holding an unspecified value")
and for the output-port bits R149 gives no value. -/
opaque Config.freeBits (draw part w : Nat) : BitVec w

/-- A free pixel: four free bytes, of parts `part` to `part + 3`. -/
def Config.freePixel (draw part : Nat) : Pixel :=
  ⟨freeBits draw part 8, freeBits draw (part + 1) 8, freeBits draw (part + 2) 8, freeBits draw (part + 3) 8⟩

end Sys2Proof
end

