-- ==== Sys2Proof/Machine/State.lean ====
section
/-! DEFINITION. The state of QOI-CORE (spec/10_state.md R20), the results of its operations, the reasons it stops, and reset. -/

namespace Sys2Proof.Machine

/-- The top-level state of the streaming machine (R24). The codes 5 to 7 are outside the type (R48). -/
inductive Phase
  | notStarted
  | parsingHeader
  | parsingOp
  | finished
  | aborted
deriving DecidableEq, Repr

/-- An iterator value: a repeat count and one pixel (R150). -/
structure Iter where
  count : BitVec 8
  pixel : Pixel
deriving DecidableEq, Repr

/-- The success results of one `FEED` (R145). -/
inductive Event
  | needMore (n : Nat)
  | pixels (it : Iter)
  | imageWidthParsed (w : BitVec 32)
  | imageHeightParsed (h : BitVec 32)
  | imageChannelParsed
  | imageColorspaceParsed
  | finished
deriving DecidableEq, Repr

/-- Every error of the spec with its payload (R171). The block raises the first three; `unknownTag` and `byteCountOverrun`
only from register states no run reaches (R136); `truncated` is the pure header parse's (R96), `shortRead` the reference
decoder's (R161). -/
inductive Err
  | badMagic (pos : Nat) (got : Byte)
  | badChannels (got : Byte)
  | badColorspace (got : Byte)
  | truncated (got : Nat)
  | unknownTag (got : Byte)
  | byteCountOverrun (got : BitVec 3)
  | shortRead
deriving DecidableEq, Repr

/-- What an operation returns to the host: `FEED` an event or an error (R170), `NEXT` a pixel or none (R152). -/
inductive Result
  | event (e : Event)
  | error (e : Err)
  | yielded (p : Option Pixel)
deriving DecidableEq, Repr

/-- The operations the host can start (R11), and the hardware reset input (R191). -/
inductive HostOp
  | feed
  | next
  | reset
  | powerOn
deriving DecidableEq, Repr

/-- The state. The first twelve fields are the registers of R20, which are the block's whole state. The last four are the
model's own: what the last step returned, what the host will do and offer, and the free-value counter. -/
structure State where
  /-- The last pixel produced (R21). -/
  px : Pixel
  /-- The pixel cache (R22). -/
  cache : Cache
  /-- The top-level state (R24). -/
  phase : Phase
  /-- Header progress, 0..13 (R25); 14 and 15 are outside the type (R48). -/
  hdrCnt : Fin 14
  /-- Whether a multi-byte opcode is in flight (R26). -/
  opBusy : Bool
  /-- The tag byte of the opcode in flight (R26). -/
  opTag : Byte
  /-- The operand bytes taken so far (R26). -/
  opNread : BitVec 3
  /-- Header field and operand bytes in flight (R28). -/
  scratch : Scratch
  /-- Pixels produced so far (R29). -/
  pxCount : Count
  /-- Pixels the image has (R30). -/
  pxTarget : Count
  /-- Pixels the iterator still has to yield (R31). -/
  itCount : BitVec 8
  /-- The pixel the iterator yields (R31). -/
  itPx : Pixel
  /-- What the operation of the last step returned to the host; none if it returned nothing. -/
  result : Option Result
  /-- The bytes the host has still to offer, the next one first (R50). -/
  stream : List Byte
  /-- The operations the host will start, one a step, the next one first (R11). -/
  host : List HostOp
  /-- How many times the decoder registers have been left unspecified: the free-value counter (R176). -/
  draw : Nat
deriving DecidableEq, Repr

/-- The spec gives the block no behaviour that stops it with a fault: an error is returned to the host and leaves the block in
phase Aborted, which is a next state (R176). So no constructor. -/
inductive Fault
deriving DecidableEq, Repr

/-- Why the machine has no step. -/
inductive Refusal
  /-- Raised by `exec` for an instruction that has no meaning yet; no arm raises it. Safe. -/
  | notModelled (mnemonic : String)
  /-- Raised by a step that is a `FEED` in phase Aborted: "this spec gives such a `FEED` no meaning: it is refused" (R144).
  Safe: nothing can be claimed of what follows it. -/
  | feedWhileAborted
deriving DecidableEq, Repr

/-- The state after power-on (R191), which is the state after `RESET()` with an empty iterator; nothing is offered yet. -/
def State.reset : State where
  px := Pixel.start
  cache := Vector.replicate 64 Pixel.zero
  phase := .notStarted
  hdrCnt := 0
  opBusy := false
  opTag := 0
  opNread := 0
  scratch := Vector.replicate 4 0
  pxCount := 0
  pxTarget := 0
  itCount := 0
  itPx := Pixel.start
  result := none
  stream := []
  host := []
  draw := 0

end Sys2Proof.Machine
end

