-- ==== Sys2Proof/Machine/Operands.lean ====
section
/-! DEFINITION. Operand forms: biased fields as 8-bit addends, the pixel each opcode computes, the length of a run
(spec/41_opcodes.md R101 to R107). The streaming machine and the reference decoder share these (R100, R162). -/

namespace Sys2Proof.Machine

/-- The 8-bit addend of a stored field `s` with bias `bias`: `(s - bias) mod 256` (R107). -/
def addend {w : Nat} (s : BitVec w) (bias : Byte) : Byte := s.setWidth 8 - bias

/-- DIFF: each colour channel plus its stored delta minus 2, alpha kept (R102). -/
def diffPixel (p : Pixel) (dr dg db : BitVec 2) : Pixel :=
  ⟨p.r + addend dr 2, p.g + addend dg 2, p.b + addend db 2, p.a⟩

/-- LUMA: green plus its delta; red and blue plus the green delta plus their own; alpha kept (R103). -/
def lumaPixel (p : Pixel) (dg : BitVec 6) (drdg dbdg : BitVec 4) : Pixel :=
  let vg := addend dg 32
  ⟨p.r + vg + addend drdg 8, p.g + vg, p.b + vg + addend dbdg 8, p.a⟩

/-- RGB: three new channels, alpha kept (R105). -/
def rgbPixel (p : Pixel) (r g b : Byte) : Pixel := ⟨r, g, b, p.a⟩

/-- RGBA: an entirely new pixel (R106). -/
def rgbaPixel (r g b a : Byte) : Pixel := ⟨r, g, b, a⟩

/-- The run length a stored field means: stored plus 1 (R79, R104). -/
def runLength (n : BitVec 6) : Nat := n.toNat + 1

/-- The pixels still owed, `px_target - px_count` (R104). -/
def owed (s : State) : Nat := s.pxTarget.toNat - s.pxCount.toNat

/-- How many pixels a run of length `n` emits when `left` are owed (R104). -/
def runEmits (policy : RunOverrun) (n left : Nat) : Nat :=
  match policy with
  | .clamp => min n left
  | .emitAll => n

end Sys2Proof.Machine
end

