-- ==== Sys2Proof/Machine/Flags.lean ====
section
/-! DEFINITION. The block has no condition codes, carry or overflow flags (spec/10_state.md R32, spec/41_opcodes.md R110). Here are
the two derived status conditions of R32, the test of the Finished check (R141), and the numeric codes (R24, R145, R171). -/

namespace Sys2Proof.Machine

/-- `finished = (phase = Finished)` (R32). -/
def State.finished (s : State) : Bool := s.phase == .finished

/-- `aborted = (phase = Aborted)` (R32). -/
def State.aborted (s : State) : Bool := s.phase == .aborted

/-- Whether all pixels are produced: equality under `clamp` (R141); under `emitAll` the count may pass the target and the test is `>=` (D5). -/
def allProduced (policy : RunOverrun) (s : State) : Bool :=
  match policy with
  | .clamp => s.pxCount == s.pxTarget
  | .emitAll => decide (s.pxTarget.toNat ≤ s.pxCount.toNat)

/-- The phase code of R24. -/
def Phase.code : Phase → BitVec 3
  | .notStarted => 0
  | .parsingHeader => 1
  | .parsingOp => 2
  | .finished => 3
  | .aborted => 4

/-- The event code of R145. -/
def Event.code : Event → BitVec 4
  | .needMore _ => 0
  | .pixels _ => 1
  | .imageWidthParsed _ => 2
  | .imageHeightParsed _ => 3
  | .imageChannelParsed => 4
  | .imageColorspaceParsed => 5
  | .finished => 6

/-- The classes of errors (R170). -/
inductive ErrClass
  | headerParse
  | decoding
  | io
deriving DecidableEq, Repr

/-- The class of an error (R171). -/
def Err.errClass : Err → ErrClass
  | .badMagic _ _ => .headerParse
  | .badChannels _ => .headerParse
  | .badColorspace _ => .headerParse
  | .truncated _ => .headerParse
  | .unknownTag _ => .decoding
  | .byteCountOverrun _ => .decoding
  | .shortRead => .io

/-- The error code of R171; the reference decoder's I/O error has none. -/
def Err.code : Err → Option (BitVec 4)
  | .badMagic _ _ => some 1
  | .badChannels _ => some 2
  | .badColorspace _ => some 3
  | .truncated _ => some 4
  | .unknownTag _ => some 5
  | .byteCountOverrun _ => some 6
  | .shortRead => none

end Sys2Proof.Machine
end

