-- ==== Sys2Proof/Machine/Ops.lean ====
section
/-! DEFINITION. The named operations over the cache and the registers, raising an error and the reset that is the only way out of
it, and the common tail of the opcodes (spec/20_memory.md R54 to R58, spec/41_opcodes.md R100, spec/42_stream_fsm.md R137 to R141,
spec/60_exceptions.md R176, spec/70_reset_and_hazards.md R190). -/

namespace Sys2Proof.Machine

/-- `hash(p)`, 8 bits, every product and sum wrapping (R54). -/
def hash (p : Pixel) : Byte := p.r * 3 + p.g * 5 + p.b * 7 + p.a * 11

/-- `slot(p) = hash(p) mod 64 = hash(p)[5:0]` (R55). -/
def slot (p : Pixel) : BitVec 6 := field (hash p) 0 6

/-- `MemRead(i, 4) = cache[i]`, the whole pixel (R56). -/
def cacheRead (m : Cache) (i : BitVec 6) : Pixel := m[i.toNat]

/-- `cache[i] <- p`, the whole pixel (R15). -/
def cacheSet (m : Cache) (i : BitVec 6) (p : Pixel) : Cache := m.set i.toNat p

/-- The cache write of R58, `cache[slot(p)] <- p`. -/
def cachePut (c : Cache) (p : Pixel) : Cache := cacheSet c (slot p) p

/-- The cache after INDEX has read `p`: the write of R58 under `INDEX_WRITES_CACHE`, else none (D7). -/
def cachePutIndexed (writes : Bool) (c : Cache) (p : Pixel) : Cache := if writes then cachePut c p else c

/-- `scratch[i] <- b` (R28). -/
def scratchSet (m : Scratch) (i : Nat) (b : Byte) : Scratch := m.setIfInBounds i b

/-- `return Ev`: the step returns event `e` to the host (R15). -/
def returnEvent (e : Event) (s : State) : State := { s with result := some (.event e) }

/-- `raise E(info)`, the one way an error is taken (R176): `phase <- Aborted`, the error is returned to the host, the iterator is
untouched. Every decoder register other than `phase` holds an unspecified value from here until `RESET()` (R176, U1, D9): a free
value each. Nothing is saved, no handler is entered. -/
def raise (e : Err) (s : State) : State :=
  { s with
    phase := .aborted
    result := some (.error e)
    px := Config.freePixel s.draw 0
    hdrCnt := Fin.ofNat 14 (Config.freeBits s.draw 4 4).toNat
    opBusy := (Config.freeBits s.draw 5 1).getLsbD 0
    opTag := Config.freeBits s.draw 6 8
    opNread := Config.freeBits s.draw 7 3
    pxCount := Config.freeBits s.draw 8 64
    pxTarget := Config.freeBits s.draw 9 64
    scratch := Vector.ofFn fun i => Config.freeBits s.draw (10 + i.val) 8
    cache := Vector.ofFn fun i => Config.freePixel s.draw (16 + 4 * i.val)
    draw := s.draw + 1 }

/-- `RESET()`, the only way out of Aborted and of Finished (R180, R190). The iterator is untouched (R158); nothing is returned. -/
def resetDecoder (s : State) : State :=
  { s with
    phase := .notStarted
    hdrCnt := 0
    opBusy := false
    opTag := 0
    opNread := 0
    px := Pixel.start
    cache := Vector.replicate 64 Pixel.zero
    scratch := Vector.replicate 4 0
    pxCount := 0
    pxTarget := 0
    result := none }

/-- Power-on: the state `RESET()` gives and an empty iterator (R191). -/
def powerOn (s : State) : State := { resetDecoder s with itCount := 0, itPx := Pixel.start }

/-- Return to Idle: no opcode in flight, the registers canonical (R139). -/
def toIdle (s : State) : State := { s with opBusy := false, opTag := 0, opNread := 0 }

/-- The end of an opcode: `k` pixels are counted (R140), the machine returns to Idle (R139), and a `Pixels` event with `k` copies of
the last pixel is returned (R138) and loads the iterator (R156). -/
def emit (k : Nat) (s : State) : State :=
  returnEvent (.pixels ⟨BitVec.ofNat 8 k, s.px⟩)
    { toIdle s with pxCount := s.pxCount + BitVec.ofNat 64 k, itCount := BitVec.ofNat 8 k, itPx := s.px }

/-- `produce(p)` and the completion of an opcode that makes one new pixel: `px <- p`, the cache becomes `c`, one pixel is emitted
(R100, R137). -/
def complete (p : Pixel) (c : Cache) (s : State) : State := emit 1 { s with px := p, cache := c }

/-- The Finished check at the end of every `FEED` that raised no error (R141). It leaves the event as it is. -/
def finishedCheck (s : State) : State :=
  if s.phase = .parsingOp ∧ allProduced Config.runOverrun s then { toIdle s with phase := .finished } else s

end Sys2Proof.Machine
end

