-- ==== Sys2Proof/Machine/HeaderItems.lean ====
section
/-! DEFINITION. The five header items (spec/42_stream_fsm.md R121 to R129, spec/40_header.md R92 to R95). -/

namespace Sys2Proof.Machine

/-- The `n` of a `NeedMore` hint after the magic byte at position `c` (R122, R128). -/
def magicHint (c : Fin 4) : Nat := 7 - c.val

/-- HDR_MAGIC at position `c` (R121, R122): a wrong byte raises BadMagic; a right one moves on. The byte is not stored. -/
def execHdrMagic (c : Fin 4) (b : Byte) (s : State) : Host.Outcome State Fault Refusal :=
  if b = magicByte c then
    .next (returnEvent (.needMore (magicHint c)) { s with phase := .parsingHeader, hdrCnt := ⟨c.val + 1, by omega⟩ })
  else .next (raise (.badMagic c.val b) s)

/-- HDR_WIDTH, last byte: "emits width-parsed event and records pixel target = width" (R124). -/
def execHdrWidth (w : BitVec 32) (s : State) : Host.Outcome State Fault Refusal :=
  .next (returnEvent (.imageWidthParsed w)
    { s with scratch := scratchSet s.scratch 3 (be32Byte w 3), pxTarget := w.setWidth 64, hdrCnt := 8 })

/-- HDR_HEIGHT, last byte: "emits height-parsed event and multiplies pixel target by height" (R126). -/
def execHdrHeight (h : BitVec 32) (s : State) : Host.Outcome State Fault Refusal :=
  .next (returnEvent (.imageHeightParsed h)
    { s with scratch := scratchSet s.scratch 3 (be32Byte h 3), pxTarget := s.pxTarget * h.setWidth 64, hdrCnt := 12 })

/-- HDR_CHANNELS: 3 or 4, "else fail" (R94, R127). The byte is not stored. -/
def execHdrChannels (b : Byte) (s : State) : Host.Outcome State Fault Refusal :=
  if b = 3 ∨ b = 4 then .next (returnEvent .imageChannelParsed { s with hdrCnt := 13 })
  else .next (raise (.badChannels b) s)

/-- HDR_COLORSPACE: 0 or 1, "else fail"; the opcode stream begins, no opcode in flight (R95, R129). `hdr_cnt` stays as it is. -/
def execHdrColorspace (b : Byte) (s : State) : Host.Outcome State Fault Refusal :=
  if b = 0 ∨ b = 1 then .next (returnEvent .imageColorspaceParsed { toIdle s with phase := .parsingOp })
  else .next (raise (.badColorspace b) s)

end Sys2Proof.Machine
end

