-- ==== Sys2Proof/Machine/Opcodes.lean ====
section
/-! DEFINITION. The six opcodes, each the effect of the COMPLETE opcode on its completing byte (spec/41_opcodes.md R100 to R110,
spec/42_stream_fsm.md R137). -/

namespace Sys2Proof.Machine

/-- RGB: `p <- Pixel(o0, o1, o2, px.a); produce(p)` (R105). -/
def execRgb (r g b : Byte) (s : State) : Host.Outcome State Fault Refusal :=
  let p := rgbPixel s.px r g b
  .next (complete p (cachePut s.cache p) s)

/-- RGBA: `p <- Pixel(o0, o1, o2, o3); produce(p)` (R106). -/
def execRgba (r g b a : Byte) (s : State) : Host.Outcome State Fault Refusal :=
  let p := rgbaPixel r g b a
  .next (complete p (cachePut s.cache p) s)

/-- INDEX: `p <- cache[i]`, "verbatim"; `produce(p)` (R101). -/
def execIndex (i : BitVec 6) (s : State) : Host.Outcome State Fault Refusal :=
  let p := cacheRead s.cache i
  .next (complete p (cachePutIndexed Config.indexWritesCache s.cache p) s)

/-- DIFF: each channel "+= (stored_delta − 2), 8-bit wrapping"; `produce(p)` (R102). -/
def execDiff (dr dg db : BitVec 2) (s : State) : Host.Outcome State Fault Refusal :=
  let p := diffPixel s.px dr dg db
  .next (complete p (cachePut s.cache p) s)

/-- LUMA: the green delta and the two deltas relative to it; `produce(p)` (R103). -/
def execLuma (dg : BitVec 6) (drdg dbdg : BitVec 4) (s : State) : Host.Outcome State Fault Refusal :=
  let p := lumaPixel s.px dg drdg dbdg
  .next (complete p (cachePut s.cache p) s)

/-- RUN: the current pixel, `min(n, px_target - px_count)` times; `px` and the cache unchanged (R104). -/
def execRun (n : BitVec 6) (s : State) : Host.Outcome State Fault Refusal :=
  .next (emit (runEmits Config.runOverrun (runLength n) (owed s)) s)

end Sys2Proof.Machine
end

