-- ==== Sys2Proof/Machine/Dispatch.lean ====
section
/-! DEFINITION. Dispatch: one arm per instruction. -/

namespace Sys2Proof.Machine

/-- The meaning of an instruction on its completing byte. -/
def exec (i : Instr) (s : State) : Host.Outcome State Fault Refusal :=
  match i with
  | .rgb r g b => Sys2Proof.Machine.execRgb r g b s
  | .rgba r g b a => Sys2Proof.Machine.execRgba r g b a s
  | .index k => Sys2Proof.Machine.execIndex k s
  | .diff dr dg db => Sys2Proof.Machine.execDiff dr dg db s
  | .luma dg drdg dbdg => Sys2Proof.Machine.execLuma dg drdg dbdg s
  | .run n => Sys2Proof.Machine.execRun n s
  | .hdrMagic c b => Sys2Proof.Machine.execHdrMagic c b s
  | .hdrWidth w => Sys2Proof.Machine.execHdrWidth w s
  | .hdrHeight h => Sys2Proof.Machine.execHdrHeight h s
  | .hdrChannels b => Sys2Proof.Machine.execHdrChannels b s
  | .hdrColorspace b => Sys2Proof.Machine.execHdrColorspace b s

end Sys2Proof.Machine
end

