-- ==== Sys2Proof/Machine/Fetch.lean ====
section
/-! DEFINITION. Where the machine stands in the stream: which item the next byte belongs to, which bytes of it are already taken,
and what taking one more that does not complete it does (spec/10_state.md R23 to R28, spec/42_stream_fsm.md R123, R125, R130 to R135). -/

namespace Sys2Proof.Machine

/-- The header index of the next byte; NotStarted stands at byte 0 (R25, R121). -/
def headerPos (s : State) : Nat :=
  match s.phase with
  | .notStarted => 0
  | .parsingHeader => s.hdrCnt.val
  | .parsingOp => s.hdrCnt.val
  | .finished => s.hdrCnt.val
  | .aborted => s.hdrCnt.val

/-- The header item at header index `c` (R51, R82). -/
def headerItem (c : Nat) : Item :=
  if c < 4 then .magic
  else if c < 8 then .width
  else if c < 12 then .height
  else if c < 13 then .channels
  else .colorspace

/-- The item the next byte belongs to (R120). -/
def nextItem (s : State) : Item :=
  match s.phase with
  | .notStarted => headerItem (headerPos s)
  | .parsingHeader => headerItem (headerPos s)
  | .parsingOp => .opcode
  | .finished => .opcode
  | .aborted => .opcode

/-- The bytes of the current item already taken: the magic bytes that passed their test, the width or height bytes in `scratch`,
the tag in `op_tag` and its operand bytes in `scratch` (R26, R28). -/
def inFlight (s : State) : List Byte :=
  match nextItem s with
  | .magic => magicBytes.take (headerPos s)
  | .width => s.scratch.toList.take (headerPos s - 4)
  | .height => s.scratch.toList.take (headerPos s - 8)
  | .channels => []
  | .colorspace => []
  | .opcode => if s.opBusy then s.opTag :: s.scratch.toList.take s.opNread.toNat else []

/-- The header index after the one at hand; byte 13 is the last (R25). -/
def hdrNext (c : Fin 14) : Fin 14 := if h : c.val + 1 < 14 then ⟨c.val + 1, h⟩ else c

/-- Store a width or height byte at place `i` of its field and move on (R123, R125). -/
def gatherHeader (b : Byte) (i : Nat) (s : State) : State :=
  { s with scratch := scratchSet s.scratch i b, hdrCnt := hdrNext s.hdrCnt }

/-- Take the tag of a multi-byte opcode (R132, R133, R134). -/
def gatherTag (b : Byte) (s : State) : State := { s with opBusy := true, opTag := b, opNread := 0 }

/-- Take an operand byte that is not the last (R135). -/
def gatherOperand (b : Byte) (s : State) : State :=
  { s with scratch := scratchSet s.scratch s.opNread.toNat b, opNread := s.opNread + 1 }

/-- Take a byte after which the item still wants `n` more, and say so (R123, R125, R128, R132 to R135, R147).
A magic, channels or colorspace byte always completes its instruction, so nothing is gathered for it. -/
def gather (b : Byte) (n : Nat) (s : State) : State :=
  returnEvent (.needMore n)
    (match nextItem s with
      | .magic => s
      | .width => gatherHeader b (headerPos s - 4) s
      | .height => gatherHeader b (headerPos s - 8) s
      | .channels => s
      | .colorspace => s
      | .opcode => if s.opBusy then gatherOperand b s else gatherTag b s)

/-- The error of bytes that are no instruction (R136). -/
def rejectErr (why : Reject) (s : State) : Err :=
  match why with
  | .unknownTag t => .unknownTag t
  | .byteCountOverrun => .byteCountOverrun s.opNread

/-- Write bytes into the scratch buffer from place `i` on. -/
def scratchFill (m : Scratch) (i : Nat) : List Byte → Scratch
  | [] => m
  | b :: bs => scratchFill (scratchSet m i b) (i + 1) bs

/-- The state in which the bytes `taken` of an item have been taken and the next byte is awaited, the iterator empty: what
withFetchWord loads. For an opcode at least one pixel has to be owed (R34); where none is, an image of 62 pixels is loaded, the
longest run. -/
def placed (it : Item) (taken : List Byte) (s : State) : State :=
  let s := { s with itCount := 0 }
  let header (c : Fin 14) : State := { s with phase := .parsingHeader, hdrCnt := c, opBusy := false, opTag := 0, opNread := 0 }
  match it with
  | .magic => header (Fin.ofNat 14 taken.length)
  | .width => { header (Fin.ofNat 14 (4 + taken.length)) with scratch := scratchFill s.scratch 0 taken }
  | .height => { header (Fin.ofNat 14 (8 + taken.length)) with scratch := scratchFill s.scratch 0 taken }
  | .channels => header 12
  | .colorspace => header 13
  | .opcode =>
    let s := { s with phase := .parsingOp, hdrCnt := 13 }
    let s := if s.pxCount.toNat < s.pxTarget.toNat then s else { s with pxCount := 0, pxTarget := 62 }
    match taken with
    | [] => toIdle s
    | t :: ops =>
      { s with opBusy := true, opTag := t, opNread := BitVec.ofNat 3 ops.length, scratch := scratchFill s.scratch 0 ops }

end Sys2Proof.Machine
end

