-- ==== Sys2Proof/Machine/Iterator.lean ====
section
/-! DEFINITION. The run-length pixel iterator: `NEXT()` (spec/43_pixel_iterator.md R150 to R159). -/

namespace Sys2Proof.Machine

/-- The sequence an iterator value stands for: `count` copies of `pixel` (R150). -/
def Iter.expand (it : Iter) : List Pixel := List.replicate it.count.toNat it.pixel

/-- `NEXT()`: an empty iterator yields none and nothing changes; otherwise the count goes down by one and the pixel is yielded (R152). -/
def nextPixel (s : State) : State :=
  if s.itCount = 0 then { s with result := some (.yielded none) }
  else { s with itCount := s.itCount - 1, result := some (.yielded (some s.itPx)) }

end Sys2Proof.Machine
end

