-- ==== Sys2Proof/Machine/Feed.lean ====
section
/-! DEFINITION. `FEED(b)` and the operations of the host (spec/42_stream_fsm.md R120 to R149, spec/43_pixel_iterator.md R157). -/

namespace Sys2Proof.Machine

/-- Apply `f` to a next state; a stop stays as it is. -/
def mapNext (f : State → State) : Host.Outcome State Fault Refusal → Host.Outcome State Fault Refusal
  | .next t => .next (f t)
  | .fault r => .fault r
  | .refused r => .refused r

/-- Take the byte `b` of the current item: it completes an instruction, which runs; or it is gathered; or the registers are illegal
and an error is raised (R121 to R136). The Finished check follows (R120, R141). -/
def takeByte (b : Byte) (s : State) : Host.Outcome State Fault Refusal :=
  match decode (nextItem s) (inFlight s ++ [b]) with
  | .done i => mapNext finishedCheck (exec i s)
  | .needMore n => .next (finishedCheck (gather b n s))
  | .reject why => .next (raise (rejectErr why s) s)

/-- `FEED(b)`, dispatched on the phase (R120). In Finished it returns `Finished` and changes no register (R142); in Aborted it has
no meaning (R144). -/
def feed (b : Byte) (s : State) : Host.Outcome State Fault Refusal :=
  match s.phase with
  | .notStarted => takeByte b s
  | .parsingHeader => takeByte b s
  | .parsingOp => takeByte b s
  | .finished => .next (returnEvent .finished s)
  | .aborted => .refused .feedWhileAborted

/-- A `FEED` the host starts: held while the iterator holds pixels, the offered byte staying first in the stream (R157); nothing
happens where the host has no byte to offer (R146). -/
def feedOp (s : State) : Host.Outcome State Fault Refusal :=
  if s.itCount = 0 then
    match s.stream with
    | [] => .next s
    | b :: bs => feed b { s with stream := bs }
  else .next s

/-- The operation `op` of the host on a state whose last result is already cleared. -/
def runOp (op : HostOp) (s : State) : Host.Outcome State Fault Refusal :=
  match op with
  | .feed => feedOp s
  | .next => .next (nextPixel s)
  | .reset => .next (resetDecoder s)
  | .powerOn => .next (powerOn s)

/-- One step: the next operation the host starts; where it starts none the block is idle "with its state held" (R184). -/
def hostStep (s : State) : Host.Outcome State Fault Refusal :=
  match s.host with
  | [] => .next { s with result := none }
  | op :: ops => runOp op { s with result := none, host := ops }

end Sys2Proof.Machine
end

