-- ==== Sys2Proof/Machine/Step.lean ====
section
/-! DEFINITION. The step, and the state whose next step runs a given word of the opcode table. -/

namespace Sys2Proof.Machine

/-- One step of the machine: one operation of the host (spec/00_scope.md R9). -/
def step (s : State) : Host.Outcome State Fault Refusal := hostStep s

/-- `s` with the instruction of a table word in flight: all its bytes but the last are taken, the last is the next byte of the
stream, and the host's next operation is `FEED`, so that the next step completes and runs exactly that instruction. -/
def State.withFetchWord (s : State) (nbits w : Nat) : State :=
  let ib := tableItem nbits w
  let t := placed ib.1 ib.2.dropLast s
  { t with stream := ib.2.drop (ib.2.length - 1) ++ t.stream, host := .feed :: t.host }

end Sys2Proof.Machine
end

