-- ==== Sys2Proof/Machine/Header.lean ====
section
/-! DEFINITION. `Header::parse`, the pure transform from 14 bytes to a Header or an error (spec/40_header.md R90 to R98). -/

namespace Sys2Proof.Machine

/-- The Header record (R90). -/
structure Header where
  width : BitVec 32
  height : BitVec 32
  channels : Byte
  colorspace : Byte
deriving DecidableEq, Repr

/-- The number of pixels of the image, an unbounded product (R90). -/
def Header.pixels (h : Header) : Nat := h.width.toNat * h.height.toNat

/-- The first magic position whose byte differs, and that byte (R92). -/
def firstMismatch : List Byte → List Byte → Nat → Option (Nat × Byte)
  | m :: ms, b :: bs, c => if b = m then firstMismatch ms bs (c + 1) else some (c, b)
  | _, _, _ => none

/-- The checks after the magic, in the order of R91, on the ten bytes after it. -/
def parseFields : List Byte → Except Err Header
  | [w0, w1, w2, w3, h0, h1, h2, h3, ch, cs] =>
    if ch ≠ 3 ∧ ch ≠ 4 then .error (.badChannels ch)
    else if cs ≠ 0 ∧ cs ≠ 1 then .error (.badColorspace cs)
    else .ok ⟨be32 w0 w1 w2 w3, be32 h0 h1 h2 h3, ch, cs⟩
  | bs => .error (.truncated (4 + bs.length))

/-- `parse(h)`: "magic first, fail fast" (R91); a buffer that is not 14 bytes long is Truncated (R96). -/
def parse (h : List Byte) : Except Err Header :=
  if h.length ≠ 14 then .error (.truncated h.length)
  else
    match firstMismatch magicBytes h 0 with
    | some (c, got) => .error (.badMagic c got)
    | none => parseFields (h.drop 4)

/-- The 14 canonical bytes of a header (R97). -/
def Header.bytes (h : Header) : List Byte :=
  magicBytes ++ encode (.hdrWidth h.width) ++ encode (.hdrHeight h.height) ++ [h.channels, h.colorspace]

end Sys2Proof.Machine
end

