-- ==== Sys2Proof/Machine/Assembler.lean ====
section
/-! DEFINITION. The spec's own assembler syntax, a pure function to bytes (spec/30_encoding.md R83). -/

namespace Sys2Proof.Machine

/-- A line of the syntax; DIFF and LUMA take signed deltas, RUN its length (R83). -/
inductive Line
  | index (i : Nat)
  | diff (dr dg db : Int)
  | luma (dg drg dbg : Int)
  | run (n : Nat)
  | rgb (r g b : Byte)
  | rgba (r g b a : Byte)
  | header (w h : BitVec 32) (c s : Byte)
  | bytes (bs : List Byte)
deriving DecidableEq, Repr

/-- The operand ranges of R83. -/
def Line.inRange : Line → Bool
  | .index i => decide (i ≤ 63)
  | .diff dr dg db => decide (-2 ≤ dr ∧ dr ≤ 1 ∧ -2 ≤ dg ∧ dg ≤ 1 ∧ -2 ≤ db ∧ db ≤ 1)
  | .luma dg drg dbg => decide (-32 ≤ dg ∧ dg ≤ 31 ∧ -8 ≤ drg ∧ drg ≤ 7 ∧ -8 ≤ dbg ∧ dbg ≤ 7)
  | .run n => decide (1 ≤ n ∧ n ≤ 62)
  | .rgb _ _ _ => true
  | .rgba _ _ _ _ => true
  | .header _ _ _ _ => true
  | .bytes _ => true

/-- The bytes of a line, by the formulas of R83. -/
def Line.assemble : Line → List Byte
  | .index i => [BitVec.ofNat 8 i]
  | .diff dr dg db => [BitVec.ofInt 8 (0x40 + (dr + 2) * 16 + (dg + 2) * 4 + (db + 2))]
  | .luma dg drg dbg => [BitVec.ofInt 8 (0x80 + (dg + 32)), BitVec.ofInt 8 ((drg + 8) * 16 + (dbg + 8))]
  | .run n => [BitVec.ofNat 8 (0xC0 + (n - 1))]
  | .rgb r g b => [0xFE, r, g, b]
  | .rgba r g b a => [0xFF, r, g, b, a]
  | .header w h c s => Header.bytes ⟨w, h, c, s⟩
  | .bytes bs => bs

end Sys2Proof.Machine
end

