-- ==== Sys2Proof/Machine/Reference.lean ====
section
/-! DEFINITION. The whole-buffer reference decoder, a pure function and no part of the hardware
(spec/44_chunked_reference.md R160 to R163). -/

namespace Sys2Proof.Machine

/-- The reference decoder's own state: last pixel, cache, and the "run remaining" counter (R160). -/
structure RefState where
  px : Pixel
  cache : Cache
  run : Nat
deriving DecidableEq, Repr

/-- The state at the start of every `decode` (R160). -/
def RefState.start : RefState := ⟨Pixel.start, Vector.replicate 64 Pixel.zero, 0⟩

/-- `read(n)`: the next `n` bytes and the rest, or the I/O error (R162). -/
def readBytes (n : Nat) (s : List Byte) : Except Err (List Byte × List Byte) :=
  if s.length < n then .error .shortRead else .ok (s.take n, s.drop n)

/-- Read one opcode: its tag, then its operand bytes (R162). The last case cannot happen, for `classify` is total (R173). -/
def readOpcode (s : List Byte) : Except Err (Instr × List Byte) :=
  match s with
  | [] => .error .shortRead
  | t :: rest =>
    match readBytes (oplen (classify t)) rest with
    | .error e => .error e
    | .ok (ops, rest') =>
      match decode .opcode (t :: ops) with
      | .done i => .ok (i, rest')
      | .needMore _ => .error (.unknownTag t)
      | .reject _ => .error (.unknownTag t)

/-- A new pixel becomes the last pixel and enters the cache (R100). -/
def RefState.produce (p : Pixel) (r : RefState) : RefState := ⟨p, cachePut r.cache p, r.run⟩

/-- The opcode rules R101 to R106 as the reference loop applies them: a run is not clamped, its further positions are counted
(R162). The header items are no opcodes and change nothing here; `readOpcode` never gives one. -/
def RefState.apply (i : Instr) (r : RefState) : RefState :=
  match i with
  | .rgb x y z => r.produce (rgbPixel r.px x y z)
  | .rgba x y z a => r.produce (rgbaPixel x y z a)
  | .index k =>
    { r with px := cacheRead r.cache k, cache := cachePutIndexed Config.indexWritesCache r.cache (cacheRead r.cache k) }
  | .diff dr dg db => r.produce (diffPixel r.px dr dg db)
  | .luma dg drdg dbdg => r.produce (lumaPixel r.px dg drdg dbdg)
  | .run n => { r with run := n.toNat }
  | .hdrMagic _ _ => r
  | .hdrWidth _ => r
  | .hdrHeight _ => r
  | .hdrChannels _ => r
  | .hdrColorspace _ => r

/-- The reference loop with `n` positions still to fill: the pixels of those positions and the bytes left unread (R162, R163). -/
def refLoop : Nat → RefState → List Byte → Except Err (List Pixel × List Byte)
  | 0, _, s => .ok ([], s)
  | n + 1, r, s =>
    match r.run with
    | k + 1 =>
      match refLoop n { r with run := k } s with
      | .ok (out, rest) => .ok (r.px :: out, rest)
      | .error e => .error e
    | 0 =>
      match readOpcode s with
      | .error e => .error e
      | .ok (i, s') =>
        match refLoop n (r.apply i) s' with
        | .ok (out, rest) => .ok ((r.apply i).px :: out, rest)
        | .error e => .error e

/-- `decode(src)`: the header, the pixels, and (for R163) the bytes left unread (R160 to R163). -/
def decodeRef (s : List Byte) : Except Err (Header × List Pixel × List Byte) :=
  match readBytes 14 s with
  | .error e => .error e
  | .ok (h, rest) =>
    match parse h with
    | .error e => .error e
    | .ok hdr =>
      match refLoop hdr.pixels RefState.start rest with
      | .error e => .error e
      | .ok (out, left) => .ok (hdr, out, left)

end Sys2Proof.Machine
end

