-- ==== Sys2Proof/Machine/Signals.lean ====
section
/-! DEFINITION. The signal-level rendering of the operations: ports and one clock cycle (spec/42_stream_fsm.md R149, spec/00_scope.md R16). -/

namespace Sys2Proof.Machine

/-- The input ports of one cycle (R149). -/
structure PortsIn where
  rst : Bool
  softReset : Bool
  inValid : Bool
  inByte : Byte
  pxReady : Bool
deriving DecidableEq, Repr

/-- A pixel on a 32-bit port, `{r, g, b, a}`, `r` in bits 31:24 (R16, D14). -/
def Pixel.pack (p : Pixel) : BitVec 32 := p.r ++ p.g ++ p.b ++ p.a

/-- `in_ready`: `it_count = 0` and `phase != Aborted` (R149). -/
def inReady (s : State) : Bool := s.itCount == 0 && !s.aborted

/-- `ev_valid`: an event or an error was returned by the step before (R149). -/
def evValid (s : State) : Bool :=
  match s.result with
  | some (.event _) => true
  | some (.error _) => true
  | some (.yielded _) => false
  | none => false

/-- `ev_err`: 0 for an event, 1 for an error (R149). DESIGN CHOICE (log 11): R149 gives it no value while nothing is presented, so it
is a free value then. -/
def evErr (s : State) : Bool :=
  match s.result with
  | some (.error _) => true
  | some (.event _) => false
  | some (.yielded _) => (Config.freeBits s.draw 305 1).getLsbD 0
  | none => (Config.freeBits s.draw 305 1).getLsbD 0

/-- `ev_code`: the event code of R145 or the error code of R171; a free value while nothing is presented
(DESIGN CHOICE, log 11). -/
def evCode (s : State) : BitVec 4 :=
  match s.result with
  | some (.event e) => e.code
  | some (.error e) => e.code.getD (Config.freeBits s.draw 300 4)
  | some (.yielded _) => Config.freeBits s.draw 300 4
  | none => Config.freeBits s.draw 300 4

/-- The low 16 bits of `ev_arg` for an error, `{pos, got}`; the spec gives `pos` to BadMagic alone, so it is free elsewhere. -/
def errArg (draw : Nat) : Err → BitVec 16
  | .badMagic pos got => BitVec.ofNat 8 pos ++ got
  | .badChannels got => Config.freeBits draw 302 8 ++ got
  | .badColorspace got => Config.freeBits draw 302 8 ++ got
  | .truncated got => Config.freeBits draw 302 8 ++ BitVec.ofNat 8 got
  | .unknownTag got => Config.freeBits draw 302 8 ++ got
  | .byteCountOverrun got => Config.freeBits draw 302 8 ++ got.setWidth 8
  | .shortRead => Config.freeBits draw 303 16

/-- `ev_arg`: `n`, `w`, `h`, or an error's payload in the low 16 bits (R149). Bits the rule gives no value are free. -/
def evArg (s : State) : BitVec 32 :=
  match s.result with
  | some (.event (.needMore n)) => BitVec.ofNat 32 n
  | some (.event (.imageWidthParsed w)) => w
  | some (.event (.imageHeightParsed h)) => h
  | some (.event (.pixels _)) => Config.freeBits s.draw 301 32
  | some (.event .imageChannelParsed) => Config.freeBits s.draw 301 32
  | some (.event .imageColorspaceParsed) => Config.freeBits s.draw 301 32
  | some (.event .finished) => Config.freeBits s.draw 301 32
  | some (.error e) => (Config.freeBits s.draw 304 16 : BitVec 16) ++ errArg s.draw e
  | some (.yielded _) => Config.freeBits s.draw 301 32
  | none => Config.freeBits s.draw 301 32

/-- `px_valid`: `it_count != 0` (R149). -/
def pxValid (s : State) : Bool := s.itCount != 0

/-- `px_data`: `it_px` packed (R149). -/
def pxData (s : State) : BitVec 32 := Pixel.pack s.itPx

/-- `phase[2:0]` (R149). -/
def phasePort (s : State) : BitVec 3 := s.phase.code

/-- One rising edge of `clk` (R149). `rst` is the power-on reset. Otherwise `NEXT()` happens when `px_valid and px_ready`;
`soft_reset` is `RESET()` and "takes priority over a `FEED` in the same cycle"; `FEED(in_byte)` happens when `in_valid and in_ready`,
which excludes `px_valid`. -/
def cycle (p : PortsIn) (s : State) : Host.Outcome State Fault Refusal :=
  let s0 := { s with result := none }
  if p.rst then .next (powerOn s0)
  else if p.softReset then
    .next (resetDecoder (if pxValid s && p.pxReady then nextPixel s0 else s0))
  else if pxValid s && p.pxReady then .next (nextPixel s0)
  else if p.inValid && inReady s then feed p.inByte s0
  else .next s0

end Sys2Proof.Machine
end

