-- ==== Sys2Proof/Safety.lean ====
section
/-! DEFINITION. What claims are stated in terms of: legal register encodings, the invariants of reachable states, runs and what they
deliver, and the shapes of an effect (spec/10_state.md R27, R34, R35; spec/43_pixel_iterator.md R159; spec/00_scope.md R12). -/

namespace Sys2Proof.Machine

/-- The reachable InProgress encodings of `(op_tag, op_nread)` (R27). -/
def LegalInFlight (tag : Byte) (nread : BitVec 3) : Prop :=
  (tag = 0xFE ∧ nread.toNat ≤ 2) ∨ (tag = 0xFF ∧ nread.toNat ≤ 3) ∨ (0x80 ≤ tag.toNat ∧ tag.toNat ≤ 0xBF ∧ nread = 0)

/-- Every slot transparent black: the cache after reset (R22). -/
def Cache.zeros : Cache := Vector.replicate 64 Pixel.zero

/-- The phases before the opcode stream. -/
def State.inHeader (s : State) : Prop := s.phase = .notStarted ∨ s.phase = .parsingHeader

/-- The invariant of reachable states: the seven of R34 (the sixth and seventh as numbers; the seventh outside Aborted, where R176
leaves `px_target` unspecified), the canonical Idle registers of R26, the header counters of R25 and R30, and what makes these
inductive. -/
structure State.Inv (s : State) : Prop where
  opOwes : s.phase = .parsingOp → s.pxCount.toNat < s.pxTarget.toNat
  finishedExact : s.phase = .finished → s.pxCount = s.pxTarget
  opLegal : s.phase = .parsingOp → s.opBusy = true → LegalInFlight s.opTag s.opNread
  idleCanonical : s.phase ≠ .aborted → s.opBusy = false → s.opTag = 0 ∧ s.opNread = 0
  busyOnlyInOp : s.phase ≠ .aborted → s.opBusy = true → s.phase = .parsingOp
  headerFresh : s.inHeader → s.pxCount = 0 ∧ s.px = Pixel.start ∧ s.cache = Cache.zeros
  itBound : s.itCount.toNat ≤ 62
  targetBound : s.phase ≠ .aborted → s.pxTarget.toNat ≤ (2 ^ 32 - 1) ^ 2
  headerTargetZero : s.inHeader → s.hdrCnt.val < 8 → s.pxTarget = 0
  headerTargetWidth : s.inHeader → s.hdrCnt.val < 12 → s.pxTarget.toNat ≤ 2 ^ 32 - 1
  notStartedAtZero : s.phase = .notStarted → s.hdrCnt = 0
  headerOver : s.phase = .parsingOp ∨ s.phase = .finished → s.hdrCnt = 13
  abortedEmpty : s.phase = .aborted → s.itCount = 0

/-- The restricted cache invariant of R35, as one that every step keeps: the last pixel is in its slot, or no opcode but RUN has
completed since reset; and each slot holds the reset pixel or a pixel that belongs there (R58, R101). -/
structure State.CacheInv (s : State) : Prop where
  lastResident : s.phase ≠ .aborted → cacheRead s.cache (slot s.px) = s.px ∨ (s.px = Pixel.start ∧ s.cache = Cache.zeros)
  slotOwn : s.phase ≠ .aborted → ∀ i, cacheRead s.cache i = Pixel.zero ∨ slot (cacheRead s.cache i) = i

/-- The end of a run (R12). -/
def State.ended (s : State) : Prop := s.phase = .finished ∧ s.itCount = 0

/-- The pixels the last step delivered through `NEXT()` (R159). -/
def State.delivered (s : State) : List Pixel :=
  match s.result with
  | some (.yielded (some p)) => [p]
  | some (.yielded none) => []
  | some (.event _) => []
  | some (.error _) => []
  | none => []

/-- Run `n` steps from `s`, collecting the pixels delivered; none where a step stops. -/
def runOut : Nat → State → Option (State × List Pixel)
  | 0, s => some (s, [])
  | n + 1, s =>
    match step s with
    | .next t => (runOut n t).map fun r => (r.1, t.delivered ++ r.2)
    | .fault _ => none
    | .refused _ => none

/-- What a host that drains the iterator before it feeds does next (R199). -/
def promptOp (s : State) : HostOp := if s.itCount = 0 then .feed else .next

/-- `n` steps with such a host, collecting the pixels delivered. -/
def promptRun : Nat → State → Option (State × List Pixel)
  | 0, s => some (s, [])
  | n + 1, s =>
    match step { s with host := [promptOp s] } with
    | .next t => (promptRun n t).map fun r => (r.1, t.delivered ++ r.2)
    | .fault _ => none
    | .refused _ => none

/-- A safe run of `n` steps: no step stops and no error is left behind. -/
def SafeRun (n : Nat) (s : State) : Prop := ∃ t out, runOut n s = some (t, out) ∧ t.phase ≠ .aborted

/-- The power-on state with a stream to offer. -/
def State.start (bytes : List Byte) : State := { State.reset with stream := bytes }

/-- The next step is the `FEED` of byte `b`, and it is not held (R120, R157). -/
def State.feeds (s : State) (b : Byte) (bs : List Byte) (ops : List HostOp) : Prop :=
  s.host = .feed :: ops ∧ s.stream = b :: bs ∧ s.itCount = 0

/-- The state the operation itself sees: the host's operation and byte are taken, nothing is returned yet. -/
def State.taken (s : State) (bs : List Byte) (ops : List HostOp) : State :=
  { s with host := ops, stream := bs, result := none }

/-- Whatever the host does next, the machine takes that step; a `FEED` for which the host has no byte changes no register (R146). -/
def Waits (t : State) : Prop :=
  ∀ op, ∃ u, step { t with host := [op] } = .next u ∧ (op = .feed → u = { t with result := none, host := [] })

/-- The host script holds no `RESET()` and no power-on. -/
def NoReset (ops : List HostOp) : Prop := ∀ op ∈ ops, op = .feed ∨ op = .next

/-- The integer sum of R54 and R55, `3r + 5g + 7b + 11a`. -/
def hashSum (p : Pixel) : Nat := 3 * p.r.toNat + 5 * p.g.toNat + 7 * p.b.toNat + 11 * p.a.toNat

/-- What the completion of an opcode leaves, apart from the cache: the last pixel is `p`, `k` copies of it are emitted, the machine is
Idle (R137 to R140, R156); everything else is as before. -/
structure Completed (s t : State) (p : Pixel) (k : Nat) : Prop where
  px : t.px = p
  itCount : t.itCount.toNat = k
  itPx : t.itPx = p
  result : t.result = some (.event (.pixels ⟨t.itCount, p⟩))
  pxCount : t.pxCount.toNat = (s.pxCount.toNat + k) % 2 ^ 64
  idle : t.opBusy = false ∧ t.opTag = 0 ∧ t.opNread = 0
  phase : t.phase = s.phase
  hdrCnt : t.hdrCnt = s.hdrCnt
  scratch : t.scratch = s.scratch
  pxTarget : t.pxTarget = s.pxTarget
  hostSide : t.stream = s.stream ∧ t.host = s.host ∧ t.draw = s.draw

/-- The cache write of R58: the slot named by the integer sum of `p` modulo 64 holds `p`, every other slot is as before. -/
def CacheWritten (s t : State) (p : Pixel) : Prop :=
  ∀ j : BitVec 6, cacheRead t.cache j = if j.toNat = hashSum p % 64 then p else cacheRead s.cache j

/-- What a header item leaves as it was: the pixel side, the opcode registers, the iterator and the host's side. -/
structure HeaderFrame (s t : State) : Prop where
  px : t.px = s.px
  cache : ∀ j, cacheRead t.cache j = cacheRead s.cache j
  pxCount : t.pxCount = s.pxCount
  iter : t.itCount = s.itCount ∧ t.itPx = s.itPx
  hostSide : t.stream = s.stream ∧ t.host = s.host ∧ t.draw = s.draw

/-- What raising `e` leaves (R176): phase Aborted and the error returned; the iterator and the host's side are as before. Of every
other decoder register nothing is said. -/
structure Raised (s t : State) (e : Err) : Prop where
  phase : t.phase = .aborted
  result : t.result = some (.error e)
  iter : t.itCount = s.itCount ∧ t.itPx = s.itPx
  hostSide : t.stream = s.stream ∧ t.host = s.host

end Sys2Proof.Machine
end

