-- ==== Sys2Proof/Certificates/Slice0/Obligations.lean ====
section
/-! DEFINITION. The statements for the provers. Each formalises numbered rules of spec/, named in its docstring. -/

open Sys2Proof Sys2Proof.Machine

/-! ### Reset and power-on -/

/-- R190: `RESET()` in any state gives every decoder register its reset value, leaves the iterator alone, returns nothing, and doing it
again changes nothing. -/
def Obligations.ResetRestoresDecoder : Prop :=
  ∀ (s : State) (ops : List HostOp), s.host = .reset :: ops →
    ∃ t, step s = .next t ∧ t.phase = .notStarted ∧ t.hdrCnt.val = 0 ∧ t.opBusy = false ∧ t.opTag = 0 ∧ t.opNread = 0 ∧
      t.px = ⟨0, 0, 0, 255⟩ ∧ (∀ i, cacheRead t.cache i = ⟨0, 0, 0, 0⟩) ∧ (∀ (i : Nat) (h : i < 4), t.scratch[i] = 0) ∧
      t.pxCount = 0 ∧ t.pxTarget = 0 ∧ t.itCount = s.itCount ∧ t.itPx = s.itPx ∧
      t.result = none ∧ t.stream = s.stream ∧ t.host = ops ∧
      ∀ ops', ops = .reset :: ops' → step t = .next { t with host := ops' }

/-- R191: power-on gives the state `RESET()` gives and in addition an empty iterator; that state, with nothing offered by the host, is
`State.reset`. -/
def Obligations.PowerOnIsResetWithEmptyIterator : Prop :=
  ∀ (s : State) (ops : List HostOp), s.host = .powerOn :: ops →
    ∃ t u, step s = .next t ∧ step { s with host := .reset :: ops } = .next u ∧
      t = { u with itCount := 0, itPx := ⟨0, 0, 0, 255⟩ } ∧
      { t with stream := [], host := [], draw := 0 } = State.reset

/-- The invariants hold in the power-on state, whatever the host offers (the values of R20, R191). -/
def Obligations.ResetStateMeetsInvariants : Prop :=
  ∀ (bytes : List Byte) (ops : List HostOp),
    State.Inv { State.start bytes with host := ops } ∧ State.CacheInv { State.start bytes with host := ops }

/-! ### Hash and cache -/

/-- R54: the wrapped 8-bit hash is the integer sum modulo 256. R55, which the spec derives from it: the slot is the same sum modulo 64. -/
def Obligations.HashAndSlotAreIntegerSums : Prop :=
  ∀ p : Pixel,
    (hash p).toNat = (3 * p.r.toNat + 5 * p.g.toNat + 7 * p.b.toNat + 11 * p.a.toNat) % 256 ∧
    (slot p).toNat = (3 * p.r.toNat + 5 * p.g.toNat + 7 * p.b.toNat + 11 * p.a.toNat) % 64

/-- R57: of two pixels with one slot the later one is what the very next INDEX of that slot gives; the first leaves no trace in the
cache. -/
def Obligations.CacheLastWriterWins : Prop :=
  ∀ (s : State) (p q : Pixel) (k : BitVec 6), k.toNat = hashSum p % 64 → hashSum q % 64 = hashSum p % 64 →
    ∃ t u v w, exec (.rgba p.r p.g p.b p.a) s = .next t ∧ exec (.rgba q.r q.g q.b q.a) t = .next u ∧
      exec (.index k) u = .next v ∧ v.px = q ∧
      exec (.rgba q.r q.g q.b q.a) s = .next w ∧ ∀ j, cacheRead u.cache j = cacheRead w.cache j

/-! ### Encoding -/

/-- R71, R73: every one of the 256 tag values selects one opcode with the argument of the map, and the tag alone tells the length. The
places of the fields inside DIFF's and LUMA's bytes are the spec's own reading (D8; log 12). -/
def Obligations.TagMapIsTotal : Prop :=
  ∀ t : Byte,
    (t.toNat ≤ 0x3F → decode .opcode [t] = .done (.index (BitVec.ofNat 6 t.toNat))) ∧
    (0x40 ≤ t.toNat ∧ t.toNat ≤ 0x7F → decode .opcode [t] =
      .done (.diff (BitVec.ofNat 2 (t.toNat / 16)) (BitVec.ofNat 2 (t.toNat / 4)) (BitVec.ofNat 2 t.toNat))) ∧
    (0x80 ≤ t.toNat ∧ t.toNat ≤ 0xBF → decode .opcode [t] = .needMore 1 ∧ ∀ n : Byte, decode .opcode [t, n] =
      .done (.luma (BitVec.ofNat 6 t.toNat) (BitVec.ofNat 4 (n.toNat / 16)) (BitVec.ofNat 4 n.toNat))) ∧
    (0xC0 ≤ t.toNat ∧ t.toNat ≤ 0xFD → decode .opcode [t] = .done (.run (BitVec.ofNat 6 (t.toNat - 0xC0)))) ∧
    (t.toNat = 0xFE → decode .opcode [t] = .needMore 3 ∧ ∀ r g b, decode .opcode [t, r, g, b] = .done (.rgb r g b)) ∧
    (t.toNat = 0xFF → decode .opcode [t] = .needMore 4 ∧ ∀ r g b a, decode .opcode [t, r, g, b, a] = .done (.rgba r g b a))

/-- Words written out from the encodings of R76 to R82 decode to the instructions they stand for. The field places of the DIFF and LUMA
words and the operand order of the RGBA word are the spec's own reading (D8; log 12, PRESUMED). -/
def Obligations.SpecWordsDecode : Prop :=
  decode .opcode [0b00001001#8] = .done (.index 9) ∧
  decode .opcode [0b01111001#8] = .done (.diff 3 2 1) ∧
  decode .opcode [0b10100101#8, 0b01101011#8] = .done (.luma 37 6 11) ∧
  decode .opcode [0b11000010#8] = .done (.run 2) ∧
  decode .opcode [0b11111110#8, 10, 20, 30] = .done (.rgb 10 20 30) ∧
  decode .opcode [0b11111111#8, 1, 2, 3, 4] = .done (.rgba 1 2 3 4) ∧
  decode .magic [0x71, 0x6F, 0x69, 0x66] = .done (.hdrMagic 3 0x66) ∧
  decode .width [0x12, 0x34, 0x56, 0x78] = .done (.hdrWidth 0x12345678) ∧
  decode .height [0, 0, 1, 2] = .done (.hdrHeight 258) ∧
  decode .channels [4] = .done (.hdrChannels 4) ∧ decode .colorspace [1] = .done (.hdrColorspace 1)

/-- R76 to R82: decoding the bytes of a well-formed instruction gives it back, with every operand. -/
def Obligations.DecodeEncodeRoundTrip : Prop :=
  ∀ i : Instr, i.wf = true → decode i.item (encode i) = .done i

/-- R72 to R74: bytes decode to at most one instruction, which is well-formed, of the item asked for, and encodes to those very bytes. -/
def Obligations.DecodedBytesAreItsEncoding : Prop :=
  ∀ (it : Item) (bs : List Byte) (i : Instr), decode it bs = .done i → i.wf = true ∧ i.item = it ∧ encode i = bs

/-- R70, R71: the tag alone tells the length, so every proper prefix of an opcode asks for exactly the bytes still missing. -/
def Obligations.OpcodePrefixesAwaitTheRest : Prop :=
  ∀ (i : Instr) (k : Nat), i.wf = true → i.item = .opcode → 0 < k → k < (encode i).length →
    decode .opcode ((encode i).take k) = .needMore ((encode i).length - k)

/-- R83: a line of the assembler syntax in its operand ranges assembles to the bytes of the opcode whose stored fields are the written
operands plus their biases; HEADER to the header's 14 bytes and BYTES to its bytes. -/
def Obligations.AssemblerLinesDecode : Prop :=
  (∀ i, Line.inRange (.index i) = true → decode .opcode (Line.assemble (.index i)) = .done (.index (BitVec.ofNat 6 i))) ∧
  (∀ dr dg db, Line.inRange (.diff dr dg db) = true → ∃ sr sg sb : BitVec 2,
    decode .opcode (Line.assemble (.diff dr dg db)) = .done (.diff sr sg sb) ∧
      (sr.toNat : Int) - 2 = dr ∧ (sg.toNat : Int) - 2 = dg ∧ (sb.toNat : Int) - 2 = db) ∧
  (∀ dg drg dbg, Line.inRange (.luma dg drg dbg) = true → ∃ (sg : BitVec 6) (sr sb : BitVec 4),
    decode .opcode (Line.assemble (.luma dg drg dbg)) = .done (.luma sg sr sb) ∧
      (sg.toNat : Int) - 32 = dg ∧ (sr.toNat : Int) - 8 = drg ∧ (sb.toNat : Int) - 8 = dbg) ∧
  (∀ n, Line.inRange (.run n) = true → ∃ s : BitVec 6,
    decode .opcode (Line.assemble (.run n)) = .done (.run s) ∧ s.toNat + 1 = n) ∧
  (∀ r g b, decode .opcode (Line.assemble (.rgb r g b)) = .done (.rgb r g b)) ∧
  (∀ r g b a, decode .opcode (Line.assemble (.rgba r g b a)) = .done (.rgba r g b a)) ∧
  (∀ w h c s, Line.assemble (.header w h c s) =
    [0x71, 0x6F, 0x69, 0x66] ++ encode (.hdrWidth w) ++ encode (.hdrHeight h) ++ [c, s]) ∧
  ∀ bs, Line.assemble (.bytes bs) = bs

/-! ### The step -/

/-- R120, R137: where the byte at hand completes the bytes of an instruction, the step is that instruction's meaning on the state with
the byte and the operation taken, and the Finished check after it. -/
def Obligations.StepRunsDecodedInstruction : Prop :=
  ∀ (s : State) (b : Byte) (bs : List Byte) (ops : List HostOp) (i : Instr), s.feeds b bs ops →
    s.phase = .notStarted ∨ s.phase = .parsingHeader ∨ s.phase = .parsingOp →
    decode (nextItem s) (inFlight s ++ [b]) = .done i →
    step s = mapNext finishedCheck (exec i (s.taken bs ops))

/-- The state made for a table word runs, in the very next step, the instruction the word decodes to. -/
def Obligations.TableWordRunsNext : Prop :=
  ∀ (s : State) (nbits w : Nat) (i : Instr), decodeTableWord nbits w = some i →
    ∃ u, step (s.withFetchWord nbits w) = mapNext finishedCheck (exec i u) ∧ nextItem u = i.item ∧ u.itCount = 0 ∧
      u.px = s.px ∧ u.cache = s.cache ∧ u.stream = s.stream ∧ u.host = s.host

/-! ### The opcodes -/

/-- R105, R80: RGB is the tag 0xFE and its three operand bytes; it runs in every state; the new pixel is (o0, o1, o2, px.a). What
completion leaves is R137 to R140 and R156; that px_count wraps modulo 2^64 in states R34 rules out is the model's choice (log 10,
DESIGN CHOICE; R29 says it never wraps). -/
def Obligations.RgbExecutes : Prop :=
  ∀ (r g b : Byte) (s : State), encode (.rgb r g b) = [0xFE, r, g, b] ∧ ∃ t, exec (.rgb r g b) s = .next t ∧
    Completed s t ⟨r, g, b, s.px.a⟩ 1 ∧ CacheWritten s t ⟨r, g, b, s.px.a⟩

/-- R106: RGBA is five bytes with the tag 0xFF; it runs in every state; the new pixel is (o0, o1, o2, o3), the operand order being D8's
(log 12). What completion leaves is R137 to R140 and R156, with px_count modulo 2^64 by the model's choice (log 10, DESIGN CHOICE). -/
def Obligations.RgbaExecutes : Prop :=
  ∀ (r g b a : Byte) (s : State), (encode (.rgba r g b a)).head? = some 0xFF ∧ (encode (.rgba r g b a)).length = 5 ∧
    ∃ t, exec (.rgba r g b a) s = .next t ∧ Completed s t ⟨r, g, b, a⟩ 1 ∧ CacheWritten s t ⟨r, g, b, a⟩

/-- R101, R58 (D7): INDEX runs in every state; the new pixel is the slot's, verbatim, and it is written to the slot of its own hash.
What completion leaves is R137 to R140 and R156, with px_count modulo 2^64 by the model's choice (log 10, DESIGN CHOICE). -/
def Obligations.IndexExecutes : Prop :=
  ∀ (i : BitVec 6) (s : State), ∃ t, exec (.index i) s = .next t ∧
    Completed s t (cacheRead s.cache i) 1 ∧ CacheWritten s t (cacheRead s.cache i)

/-- R102, R107: DIFF runs in every state; each colour channel moves by its stored delta minus 2 on integers, reduced modulo 256 once;
alpha is kept. What completion leaves is R137 to R140 and R156, with px_count modulo 2^64 by the model's choice (log 10, DESIGN
CHOICE). -/
def Obligations.DiffExecutes : Prop :=
  ∀ (dr dg db : BitVec 2) (s : State), ∃ t p, exec (.diff dr dg db) s = .next t ∧
    Completed s t p 1 ∧ CacheWritten s t p ∧ p.a = s.px.a ∧
    (p.r.toNat : Int) = (s.px.r.toNat + (dr.toNat - 2)) % 256 ∧
    (p.g.toNat : Int) = (s.px.g.toNat + (dg.toNat - 2)) % 256 ∧
    (p.b.toNat : Int) = (s.px.b.toNat + (db.toNat - 2)) % 256

/-- R103, R107: LUMA runs in every state; green moves by its stored delta minus 32, red and blue by that and their stored delta minus 8;
alpha is kept. What completion leaves is R137 to R140 and R156, with px_count modulo 2^64 by the model's choice (log 10, DESIGN
CHOICE). -/
def Obligations.LumaExecutes : Prop :=
  ∀ (dg : BitVec 6) (drdg dbdg : BitVec 4) (s : State), ∃ t p, exec (.luma dg drdg dbdg) s = .next t ∧
    Completed s t p 1 ∧ CacheWritten s t p ∧ p.a = s.px.a ∧
    (p.g.toNat : Int) = (s.px.g.toNat + (dg.toNat - 32)) % 256 ∧
    (p.r.toNat : Int) = (s.px.r.toNat + ((dg.toNat - 32) + (drdg.toNat - 8))) % 256 ∧
    (p.b.toNat : Int) = (s.px.b.toNat + ((dg.toNat - 32) + (dbdg.toNat - 8))) % 256

/-- R104: RUN, with a pixel owed (its corner case (c)), emits the current pixel min(n, px_target - px_count) times, at least once; `px`
and the cache are unchanged. -/
def Obligations.RunExecutes : Prop :=
  ∀ (n : BitVec 6) (s : State), n.toNat ≤ 61 → s.pxCount.toNat < s.pxTarget.toNat →
    ∃ t k, exec (.run n) s = .next t ∧ k = min (n.toNat + 1) (s.pxTarget.toNat - s.pxCount.toNat) ∧ 1 ≤ k ∧ k ≤ 62 ∧
      Completed s t s.px k ∧ ∀ j, cacheRead t.cache j = cacheRead s.cache j

/-- R108: alpha changes only through RGBA and INDEX. -/
def Obligations.AlphaChangesOnlyThroughRgbaAndIndex : Prop :=
  ∀ (i : Instr) (s t : State), exec i s = .next t → t.phase ≠ .aborted → t.px.a ≠ s.px.a →
    (∃ r g b a, i = .rgba r g b a ∧ t.px.a = a) ∨ ∃ k, i = .index k ∧ t.px.a = (cacheRead s.cache k).a

/-! ### The header items -/

/-- R122: at magic position c the right byte moves on with the hint 7 - c; any other raises BadMagic naming the position and the byte.
In ParsingHeader at byte c = 0..3 this is what the step does. The value of the hint is the spec's decision D6 (R128; log 14, DEDUCED). -/
def Obligations.MagicByteExecutes : Prop :=
  ∀ (c : Fin 4) (b : Byte) (s : State),
    (b = [0x71, 0x6F, 0x69, 0x66].getD c.val 0 → ∃ t, exec (.hdrMagic c b) s = .next t ∧
      t.phase = .parsingHeader ∧ t.hdrCnt.val = c.val + 1 ∧ t.result = some (.event (.needMore (7 - c.val))) ∧
      HeaderFrame s t ∧ t.scratch = s.scratch ∧ t.pxTarget = s.pxTarget ∧
      t.opBusy = s.opBusy ∧ t.opTag = s.opTag ∧ t.opNread = s.opNread) ∧
    (b ≠ [0x71, 0x6F, 0x69, 0x66].getD c.val 0 →
      ∃ t, exec (.hdrMagic c b) s = .next t ∧ Raised s t (.badMagic c.val b)) ∧
    ∀ bs ops, s.feeds b bs ops → s.phase = .parsingHeader → s.hdrCnt.val = c.val → step s = exec (.hdrMagic c b) (s.taken bs ops)

/-- R124: the last width byte records the width as the target. In ParsingHeader at byte 7 the step runs HDR_WIDTH on the big-endian value
of scratch and the byte. -/
def Obligations.WidthExecutes : Prop :=
  (∀ (w : BitVec 32) (s : State), ∃ t, exec (.hdrWidth w) s = .next t ∧
    t.pxTarget.toNat = w.toNat ∧ t.hdrCnt.val = 8 ∧ t.result = some (.event (.imageWidthParsed w)) ∧
    t.scratch[3].toNat = w.toNat % 256 ∧ (∀ (i : Nat) (h : i < 3), t.scratch[i] = s.scratch[i]) ∧
    t.phase = s.phase ∧ HeaderFrame s t ∧ t.opBusy = s.opBusy ∧ t.opTag = s.opTag ∧ t.opNread = s.opNread) ∧
  ∀ (s : State) (b : Byte) (bs : List Byte) (ops : List HostOp), s.feeds b bs ops → s.phase = .parsingHeader → s.hdrCnt.val = 7 →
    ∃ w : BitVec 32,
      w.toNat = s.scratch[0].toNat * 2 ^ 24 + s.scratch[1].toNat * 2 ^ 16 + s.scratch[2].toNat * 2 ^ 8 + b.toNat ∧
      step s = exec (.hdrWidth w) (s.taken bs ops)

/-- R126 (and R30): the last height byte multiplies the target by the height, exactly where the target is a width. In ParsingHeader at
byte 11 the step runs HDR_HEIGHT on the big-endian value of scratch and the byte. -/
def Obligations.HeightExecutes : Prop :=
  (∀ (h : BitVec 32) (s : State), ∃ t, exec (.hdrHeight h) s = .next t ∧
    (s.pxTarget.toNat < 2 ^ 32 → t.pxTarget.toNat = s.pxTarget.toNat * h.toNat) ∧
    t.hdrCnt.val = 12 ∧ t.result = some (.event (.imageHeightParsed h)) ∧
    t.scratch[3].toNat = h.toNat % 256 ∧ (∀ (i : Nat) (hi : i < 3), t.scratch[i] = s.scratch[i]) ∧
    t.phase = s.phase ∧ HeaderFrame s t ∧ t.opBusy = s.opBusy ∧ t.opTag = s.opTag ∧ t.opNread = s.opNread) ∧
  ∀ (s : State) (b : Byte) (bs : List Byte) (ops : List HostOp), s.feeds b bs ops → s.phase = .parsingHeader → s.hdrCnt.val = 11 →
    ∃ h : BitVec 32,
      h.toNat = s.scratch[0].toNat * 2 ^ 24 + s.scratch[1].toNat * 2 ^ 16 + s.scratch[2].toNat * 2 ^ 8 + b.toNat ∧
      step s = exec (.hdrHeight h) (s.taken bs ops)

/-- R127: 3 and 4 are accepted and not stored; any other byte raises BadChannels. In ParsingHeader at byte 12 this is what the step
does. -/
def Obligations.ChannelsExecutes : Prop :=
  ∀ (b : Byte) (s : State),
    (b.toNat = 3 ∨ b.toNat = 4 → ∃ t, exec (.hdrChannels b) s = .next t ∧
      t.hdrCnt.val = 13 ∧ t.result = some (.event .imageChannelParsed) ∧ t.phase = s.phase ∧ HeaderFrame s t ∧
      t.scratch = s.scratch ∧ t.pxTarget = s.pxTarget ∧
      t.opBusy = s.opBusy ∧ t.opTag = s.opTag ∧ t.opNread = s.opNread) ∧
    (b.toNat ≠ 3 ∧ b.toNat ≠ 4 → ∃ t, exec (.hdrChannels b) s = .next t ∧ Raised s t (.badChannels b)) ∧
    ∀ bs ops, s.feeds b bs ops → s.phase = .parsingHeader → s.hdrCnt.val = 12 → step s = exec (.hdrChannels b) (s.taken bs ops)

/-- R129 before the Finished check: 0 and 1 are accepted and the opcode stream begins Idle; any other byte raises BadColorspace. -/
def Obligations.ColorspaceExecutes : Prop :=
  ∀ (b : Byte) (s : State),
    (b.toNat = 0 ∨ b.toNat = 1 → ∃ t, exec (.hdrColorspace b) s = .next t ∧
      t.phase = .parsingOp ∧ t.opBusy = false ∧ t.opTag = 0 ∧ t.opNread = 0 ∧
      t.result = some (.event .imageColorspaceParsed) ∧ t.hdrCnt = s.hdrCnt ∧ HeaderFrame s t ∧
      t.scratch = s.scratch ∧ t.pxTarget = s.pxTarget) ∧
    (b.toNat ≠ 0 ∧ b.toNat ≠ 1 → ∃ t, exec (.hdrColorspace b) s = .next t ∧ Raised s t (.badColorspace b))

/-- R129: the step of an accepted colorspace byte ends in Finished at once where the target is the count (a zero-pixel image), else in
ParsingOp; the event is ImageColorspaceParsed either way. Any other byte raises BadColorspace. -/
def Obligations.ColorspaceByteEntersOpcodeStream : Prop :=
  ∀ (s : State) (b : Byte) (bs : List Byte) (ops : List HostOp), s.feeds b bs ops →
    s.phase = .parsingHeader → s.hdrCnt.val = 13 →
    (b.toNat = 0 ∨ b.toNat = 1 → ∃ t, step s = .next t ∧ t.phase = (if s.pxCount = s.pxTarget then .finished else .parsingOp) ∧
      t.result = some (.event .imageColorspaceParsed) ∧ t.hdrCnt.val = 13 ∧
      t.opBusy = false ∧ t.opTag = 0 ∧ t.opNread = 0 ∧
      HeaderFrame (s.taken bs ops) t ∧ t.scratch = s.scratch ∧ t.pxTarget = s.pxTarget) ∧
    (b.toNat ≠ 0 ∧ b.toNat ≠ 1 → ∃ t, step s = .next t ∧ Raised (s.taken bs ops) t (.badColorspace b))

/-- R94, R95: which of the accepted channel counts and colorspaces the header gives makes no difference to any state. -/
def Obligations.ChannelsAndColorspaceAreInformational : Prop :=
  ∀ s : State, exec (.hdrChannels 3) s = exec (.hdrChannels 4) s ∧ exec (.hdrColorspace 0) s = exec (.hdrColorspace 1) s

/-- R121: NotStarted takes the first byte as ParsingHeader at header byte 0 does, and a right one leaves ParsingHeader at 1. The value 7
of the hint is the spec's decision D6 (R128; log 14, DEDUCED). -/
def Obligations.FirstByteIsHeaderByteZero : Prop :=
  ∀ (s : State) (b : Byte) (bs : List Byte) (ops : List HostOp), s.feeds b bs ops → s.phase = .notStarted →
    step s = step { s with phase := .parsingHeader, hdrCnt := 0 } ∧
    (b.toNat = 0x71 → ∃ t, step s = .next t ∧ t.phase = .parsingHeader ∧ t.hdrCnt.val = 1 ∧
      t.result = some (.event (.needMore 7))) ∧
    (b.toNat ≠ 0x71 → ∃ t, step s = .next t ∧ Raised (s.taken bs ops) t (.badMagic 0 b))

/-- R123, R125, R128: the first three bytes of width and of height go to scratch, one place each, with the hints 3, 2, 1,
whose values are the spec's decision D6 (log 14, DEDUCED). -/
def Obligations.WidthAndHeightBytesGather : Prop :=
  ∀ (s : State) (b : Byte) (bs : List Byte) (ops : List HostOp) (i : Nat) (hi : i < 3), s.feeds b bs ops →
    s.phase = .parsingHeader → s.hdrCnt.val = 4 + i ∨ s.hdrCnt.val = 8 + i →
    ∃ t, step s = .next t ∧ t.result = some (.event (.needMore (3 - i))) ∧ t.hdrCnt.val = s.hdrCnt.val + 1 ∧
      t.scratch[i] = b ∧ (∀ (j : Nat) (hj : j < 4), j ≠ i → t.scratch[j] = s.scratch[j]) ∧
      t.phase = .parsingHeader ∧ t.pxTarget = s.pxTarget ∧ HeaderFrame (s.taken bs ops) t ∧
      t.opBusy = s.opBusy ∧ t.opTag = s.opTag ∧ t.opNread = s.opNread

/-! ### Gathering and completing opcodes -/

/-- R131: an Idle tag of INDEX, DIFF or RUN completes its opcode in the same step and returns `Pixels`. -/
def Obligations.OneByteOpcodeCompletesOnItsTag : Prop :=
  ∀ (s : State) (b : Byte) (bs : List Byte) (ops : List HostOp), s.feeds b bs ops → s.phase = .parsingOp → s.opBusy = false →
    classify b = .index ∨ classify b = .diff ∨ classify b = .run →
    ∃ i t it, encode i = [b] ∧ exec i (s.taken bs ops) = .next t ∧ step s = .next (finishedCheck t) ∧
      (finishedCheck t).result = some (.event (.pixels it))

/-- R132, R133, R134: an Idle tag of RGB, RGBA or LUMA is kept in op_tag and asks for 3, 4 or 1 bytes; nothing else changes. The
values of the hints are the spec's decision D6 (R147; log 14, DEDUCED). -/
def Obligations.MultiByteTagAwaitsItsOperands : Prop :=
  ∀ (s : State) (b : Byte) (bs : List Byte) (ops : List HostOp) (n : Nat), s.feeds b bs ops → s.phase = .parsingOp →
    s.opBusy = false → s.pxCount ≠ s.pxTarget →
    (b.toNat = 0xFE ∧ n = 3) ∨ (b.toNat = 0xFF ∧ n = 4) ∨ (0x80 ≤ b.toNat ∧ b.toNat ≤ 0xBF ∧ n = 1) →
    step s = .next { s with
      opBusy := true, opTag := b, opNread := 0, result := some (.event (.needMore n)), stream := bs, host := ops }

/-- R135, first case: an operand byte that is not the last goes to scratch and is counted (D11); nothing else changes. The value of the
hint is the spec's decision D6 (R147; log 14, DEDUCED). -/
def Obligations.OperandByteWaitsInScratch : Prop :=
  ∀ (s : State) (b : Byte) (bs : List Byte) (ops : List HostOp) (i L : Nat), s.feeds b bs ops → s.phase = .parsingOp →
    s.opBusy = true → s.pxCount ≠ s.pxTarget → s.opNread.toNat = i →
    (s.opTag = 0xFE ∧ L = 3) ∨ (s.opTag = 0xFF ∧ L = 4) → i + 1 < L →
    ∃ t, step s = .next t ∧ t.opNread.toNat = i + 1 ∧ t.result = some (.event (.needMore (L - 1 - i))) ∧
      (∀ (j : Nat) (hj : j < 4), t.scratch[j] = if j = i then b else s.scratch[j]) ∧
      t = { s with
        opNread := t.opNread, scratch := t.scratch, result := t.result, stream := bs, host := ops }

/-- R135, second case: the last operand byte runs the opcode on the operands in scratch and the byte. -/
def Obligations.LastOperandByteCompletesOpcode : Prop :=
  ∀ (s : State) (b : Byte) (bs : List Byte) (ops : List HostOp), s.feeds b bs ops → s.phase = .parsingOp → s.opBusy = true →
    (s.opTag = 0xFE → s.opNread = 2 →
      step s = mapNext finishedCheck (exec (.rgb s.scratch[0] s.scratch[1] b) (s.taken bs ops))) ∧
    (s.opTag = 0xFF → s.opNread = 3 →
      step s = mapNext finishedCheck (exec (.rgba s.scratch[0] s.scratch[1] s.scratch[2] b) (s.taken bs ops))) ∧
    (0x80 ≤ s.opTag.toNat → s.opTag.toNat ≤ 0xBF → s.opNread = 0 →
      ∃ (dg : BitVec 6) (sr sb : BitVec 4), dg.toNat = s.opTag.toNat - 0x80 ∧ sr.toNat = b.toNat / 16 ∧ sb.toNat = b.toNat % 16 ∧
        step s = mapNext finishedCheck (exec (.luma dg sr sb) (s.taken bs ops)))

/-- R136, R174: an illegal (op_tag, op_nread) raises UnknownTag where the tag is no multi-byte opcode's, else ByteCountOverrun. -/
def Obligations.IllegalOpcodeRegistersRaise : Prop :=
  ∀ (s : State) (b : Byte) (bs : List Byte) (ops : List HostOp), s.feeds b bs ops → s.phase = .parsingOp → s.opBusy = true →
    ¬ LegalInFlight s.opTag s.opNread →
    ∃ t, step s = .next t ∧
      (if classify s.opTag = .rgb ∨ classify s.opTag = .rgba ∨ classify s.opTag = .luma
        then Raised (s.taken bs ops) t (.byteCountOverrun s.opNread)
        else Raised (s.taken bs ops) t (.unknownTag s.opTag))

/-- R148 with R135, R137: from Idle, feeding the bytes of an opcode one by one leaves what its meaning leaves, but for the scratch
bytes; `px`, the cache and the count are unchanged until the last byte. -/
def Obligations.OpcodeResumesByteByByte : Prop :=
  ∀ (i : Instr) (s : State) (rest : List Byte), i.wf = true → i.item = .opcode → s.Inv → s.phase = .parsingOp →
    s.opBusy = false → s.itCount = 0 → s.stream = encode i ++ rest →
    ∃ t u, promptRun (encode i).length s = some (t, []) ∧ exec i { s with stream := rest, host := [] } = .next u ∧
      t = { finishedCheck u with scratch := t.scratch } ∧
      ∀ k, k < (encode i).length → ∃ v, promptRun k s = some (v, []) ∧ v.px = s.px ∧ v.cache = s.cache ∧ v.pxCount = s.pxCount ∧
        v.phase = .parsingOp

/-! ### Finished, Aborted, the interlock, the iterator -/

/-- R141: after a `FEED` that raised no error the machine is not left in ParsingOp with all pixels produced: it is Finished, Idle. -/
def Obligations.FinishedExactlyAtTarget : Prop :=
  ∀ (s t : State) (b : Byte) (bs : List Byte) (ops : List HostOp), s.feeds b bs ops → s.phase ≠ .finished →
    step s = .next t → t.phase ≠ .aborted →
    (t.phase = .parsingOp → t.pxCount ≠ t.pxTarget) ∧
    (t.phase = .finished → t.pxCount = t.pxTarget ∧ t.opBusy = false ∧ t.opTag = 0 ∧ t.opNread = 0 ∧
      t.result ≠ some (.event .finished))

/-- R142, R143: in Finished a `FEED` returns Finished, ignores the byte and changes no register. -/
def Obligations.FinishedIgnoresBytes : Prop :=
  ∀ (s : State) (b : Byte) (bs : List Byte) (ops : List HostOp), s.feeds b bs ops → s.phase = .finished →
    step s = .next { s with result := some (.event .finished), stream := bs, host := ops }

/-- R144: in Aborted a `FEED` has no meaning and is refused, while `RESET()` and `NEXT()` still run (R180, R182). -/
def Obligations.AbortedRefusesFeed : Prop :=
  ∀ (s : State) (b : Byte) (bs : List Byte) (ops : List HostOp), s.phase = .aborted →
    (s.feeds b bs ops → step s = .refused .feedWhileAborted) ∧
    (s.host = .reset :: ops → ∃ t, step s = .next t ∧ t.phase = .notStarted) ∧
    (s.host = .next :: ops → ∃ t, step s = .next t ∧ t.phase = .aborted)

/-- R157: while the iterator holds pixels a `FEED` does not happen: the byte stays offered and no register changes. -/
def Obligations.FeedHeldWhileIteratorHolds : Prop :=
  ∀ (s : State) (ops : List HostOp), s.host = .feed :: ops → s.itCount ≠ 0 →
    step s = .next { s with result := none, host := ops }

/-- R152: `NEXT()` on an empty iterator yields none; else the count goes down by one and the pixel is yielded; nothing else changes. -/
def Obligations.NextYieldsAndCountsDown : Prop :=
  ∀ (s : State) (ops : List HostOp), s.host = .next :: ops →
    ∃ t, step s = .next t ∧ t = { s with itCount := t.itCount, result := t.result, host := ops } ∧
      (s.itCount = 0 → t.itCount = 0 ∧ t.result = some (.yielded none)) ∧
      (s.itCount ≠ 0 → t.itCount.toNat + 1 = s.itCount.toNat ∧ t.result = some (.yielded (some s.itPx)))

/-- R153: an iterator of count k yields exactly k pixels, all its pixel, and then none for ever. -/
def Obligations.IteratorYieldsExactlyItsCount : Prop :=
  ∀ (s : State) (j : Nat) (ops : List HostOp), s.host = List.replicate (s.itCount.toNat + j) .next ++ ops →
    ∃ t, runOut (s.itCount.toNat + j) s = some (t, List.replicate s.itCount.toNat s.itPx) ∧
      t = { s with itCount := 0, result := t.result, host := ops } ∧ (0 < j → t.result = some (.yielded none))

/-- R10: the iterator shares no state with the decode agent: what pixel it last held makes no difference to a `FEED`. -/
def Obligations.FeedIgnoresIteratorPixel : Prop :=
  ∀ (s t : State) (b : Byte) (bs : List Byte) (ops : List HostOp) (p : Pixel), s.feeds b bs ops → step s = .next t →
    ∃ t', step { s with itPx := p } = .next t' ∧ t' = { t with itPx := t'.itPx } ∧ (t.itCount ≠ 0 → t'.itPx = t.itPx)

/-! ### Whole-machine rules -/

/-- R34 (with R25, R26, R30): every step from a state that meets the invariant leaves one that meets it. -/
def Obligations.StepKeepsInv : Prop :=
  ∀ s t : State, s.Inv → step s = .next t → t.Inv

/-- R34: every state of every run from power-on, whatever bytes and operations the host brings, meets the invariant. -/
def Obligations.EveryRunMeetsInv : Prop :=
  ∀ (bytes : List Byte) (ops : List HostOp) (n : Nat) (t : State) (out : List Pixel),
    runOut n { State.start bytes with host := ops } = some (t, out) → t.Inv ∧ t.CacheInv

/-- R35, R58, R101: every step keeps the cache invariant. -/
def Obligations.StepKeepsCacheInv : Prop :=
  ∀ s t : State, s.Inv → s.CacheInv → step s = .next t → t.CacheInv

/-- R138, R140: a `Pixels` event carries 1 to 62 copies of the last pixel after the step, loads the iterator with them, and the count
goes up by just that many and not past the target; a step with no such event that is no reset, power-on or error leaves the count. -/
def Obligations.CountFollowsPixelsEmitted : Prop :=
  ∀ s t : State, s.Inv → step s = .next t →
    (∀ it, t.result = some (.event (.pixels it)) →
      1 ≤ it.count.toNat ∧ it.count.toNat ≤ 62 ∧ it.pixel = t.px ∧ t.itCount = it.count ∧ t.itPx = it.pixel ∧
      t.pxCount.toNat = s.pxCount.toNat + it.count.toNat ∧ t.pxCount.toNat ≤ t.pxTarget.toNat) ∧
    ((∀ it, t.result ≠ some (.event (.pixels it))) → (∀ e, t.result ≠ some (.error e)) →
      s.host.head? ≠ some .reset → s.host.head? ≠ some .powerOn → t.pxCount = s.pxCount)

/-- R172: from a state that meets the invariant only a header byte raises an error: a wrong magic byte at its position, a channel byte
that is neither 3 nor 4 at 12, a colorspace byte that is neither 0 nor 1 at 13; each raises it at that very byte. That no other byte
raises anything is R110, which the spec derives, with R173 and R174. -/
def Obligations.OnlyBadHeaderBytesRaise : Prop :=
  ∀ (s t : State) (b : Byte) (bs : List Byte) (ops : List HostOp), s.Inv → s.feeds b bs ops → step s = .next t →
    ∀ e, t.result = some (.error e) ↔
      s.inHeader ∧
        ((s.hdrCnt.val < 4 ∧ b ≠ [0x71, 0x6F, 0x69, 0x66].getD s.hdrCnt.val 0 ∧ e = .badMagic s.hdrCnt.val b) ∨
         (s.hdrCnt.val = 12 ∧ b.toNat ≠ 3 ∧ b.toNat ≠ 4 ∧ e = .badChannels b) ∨
         (s.hdrCnt.val = 13 ∧ b.toNat ≠ 0 ∧ b.toNat ≠ 1 ∧ e = .badColorspace b))

/-- R180, R194: only `RESET()` and power-on leave Finished or Aborted, and no step but they and an error takes a decode back: in
Finished every register of the decoder keeps its value. -/
def Obligations.OnlyResetLeavesFinishedOrAborted : Prop :=
  ∀ s t : State, s.phase = .finished ∨ s.phase = .aborted → step s = .next t →
    s.host.head? ≠ some .reset → s.host.head? ≠ some .powerOn →
    t = { s with itCount := t.itCount, result := t.result, stream := t.stream, host := t.host }

/-- R111: the phase transitions that exist, and no others. -/
def Obligations.PhaseMovesOnlyForward : Prop :=
  ∀ s t : State, step s = .next t → t.phase ≠ s.phase →
    s.host.head? = some .reset ∨ s.host.head? = some .powerOn ∨ t.phase = .aborted ∨
    (s.phase = .notStarted ∧ t.phase = .parsingHeader) ∨
    (s.phase = .parsingHeader ∧ s.hdrCnt.val = 13 ∧ (t.phase = .parsingOp ∨ t.phase = .finished)) ∨
    (s.phase = .parsingOp ∧ t.phase = .finished)

/-! ### The header as a whole -/

/-- R97: parsing the 14 canonical bytes of a header with legal channels and colorspace gives that header. -/
def Obligations.HeaderRoundTrip : Prop :=
  ∀ h : Header, h.channels.toNat = 3 ∨ h.channels.toNat = 4 → h.colorspace.toNat = 0 ∨ h.colorspace.toNat = 1 →
    parse h.bytes = .ok h ∧ ∃ w0 w1 w2 w3 h0 h1 h2 h3 : Byte,
      h.bytes = [0x71, 0x6F, 0x69, 0x66, w0, w1, w2, w3, h0, h1, h2, h3, h.channels, h.colorspace] ∧
      h.width.toNat = w0.toNat * 2 ^ 24 + w1.toNat * 2 ^ 16 + w2.toNat * 2 ^ 8 + w3.toNat ∧
      h.height.toNat = h0.toNat * 2 ^ 24 + h1.toNat * 2 ^ 16 + h2.toNat * 2 ^ 8 + h3.toNat

/-- R91, R96: the checks of the parse and their order; a buffer that is not 14 bytes long is Truncated. -/
def Obligations.ParseChecksInOrder : Prop :=
  (∀ h : List Byte, h.length ≠ 14 → parse h = .error (.truncated h.length)) ∧
  (∀ (h : List Byte) (c : Nat), h.length = 14 → c < 4 → h.getD c 0 ≠ [0x71, 0x6F, 0x69, 0x66].getD c 0 →
    h.take c = [0x71, 0x6F, 0x69, 0x66].take c → parse h = .error (.badMagic c (h.getD c 0))) ∧
  ∀ w0 w1 w2 w3 h0 h1 h2 h3 ch cs : Byte,
    parse [0x71, 0x6F, 0x69, 0x66, w0, w1, w2, w3, h0, h1, h2, h3, ch, cs] =
      if ch ≠ 3 ∧ ch ≠ 4 then .error (.badChannels ch)
      else if cs ≠ 0 ∧ cs ≠ 1 then .error (.badColorspace cs)
      else .ok ⟨be32 w0 w1 w2 w3, be32 h0 h1 h2 h3, ch, cs⟩

/-- R98: feeding 14 bytes to the power-on state agrees with the parse. Where it succeeds, all 14 steps run and leave the target
width times height; where it fails, the same error comes from the `FEED` of the byte at fault, and no earlier byte raised one. -/
def Obligations.StreamingHeaderMatchesParse : Prop :=
  ∀ (h rest : List Byte), h.length = 14 →
    (∀ hdr, parse h = .ok hdr → ∃ t, promptRun 14 (State.start (h ++ rest)) = some (t, []) ∧
      t.result = some (.event .imageColorspaceParsed) ∧ t.pxTarget.toNat = hdr.width.toNat * hdr.height.toNat ∧
      t.phase = (if hdr.width.toNat * hdr.height.toNat = 0 then .finished else .parsingOp) ∧ t.stream = rest ∧
      (∃ u, promptRun 8 (State.start (h ++ rest)) = some (u, []) ∧ u.result = some (.event (.imageWidthParsed hdr.width))) ∧
      ∃ u, promptRun 12 (State.start (h ++ rest)) = some (u, []) ∧ u.result = some (.event (.imageHeightParsed hdr.height))) ∧
    (∀ e, parse h = .error e → ∃ c t, c < 14 ∧ promptRun (c + 1) (State.start (h ++ rest)) = some (t, []) ∧
      t.result = some (.error e) ∧ t.phase = .aborted ∧ t.stream = h.drop (c + 1) ++ rest ∧
      ((∃ got, e = .badMagic c got ∧ got = h.getD c 0 ∧ c < 4) ∨ (e = .badChannels (h.getD c 0) ∧ c = 12) ∨
        (e = .badColorspace (h.getD c 0) ∧ c = 13)) ∧
      ∀ k, k < c + 1 → ∃ u, promptRun k (State.start (h ++ rest)) = some (u, []) ∧ u.phase ≠ .aborted)

/-! ### Against the reference decoder -/

/-- R163, R167: a successful reference decode gives exactly width times height pixels and reads a front part of its bytes. -/
def Obligations.ReferenceFillsExactly : Prop :=
  ∀ (s : List Byte) (hdr : Header) (out : List Pixel) (rest : List Byte), decodeRef s = .ok (hdr, out, rest) →
    out.length = hdr.width.toNat * hdr.height.toNat ∧ ∃ used, s = used ++ rest ∧ 14 ≤ used.length ∧
      used.length ≤ 14 + 5 * out.length ∧ ∀ more, decodeRef (used ++ more) = .ok (hdr, out, more)

/-- R166: wherever the reference decodes, the machine fed the same bytes by a host that drains the iterator first reaches the end of a
run having delivered exactly the reference's pixels and taken exactly the bytes the reference read. -/
def Obligations.StreamingMatchesReference : Prop :=
  ∀ (s : List Byte) (hdr : Header) (out : List Pixel) (rest : List Byte), decodeRef s = .ok (hdr, out, rest) →
    ∃ n t, promptRun n (State.start s) = some (t, out) ∧ t.ended ∧ t.stream = rest ∧
      t.pxCount = t.pxTarget ∧ t.pxTarget.toNat = out.length

/-- R146, R168, R96: where the reference runs out of bytes, the machine fed all of them raises no error and waits: after at least 14
bytes in ParsingOp, after fewer in NotStarted or ParsingHeader. Left out are inputs of fewer than 14 bytes with a wrong magic byte or,
of 13 bytes, a wrong channel byte: there the machine raises that byte's error (R122, R127; log 17). -/
def Obligations.TruncatedStreamWaits : Prop :=
  ∀ s : List Byte,
    (14 ≤ s.length → decodeRef s = .error .shortRead →
      ∃ n t out, promptRun n (State.start s) = some (t, out) ∧ t.stream = [] ∧ t.itCount = 0 ∧ t.phase = .parsingOp ∧
        t.pxCount.toNat < t.pxTarget.toNat ∧ Waits t) ∧
    (s.length < 14 → (∀ k, k < 4 → k < s.length → s.getD k 0 = [0x71, 0x6F, 0x69, 0x66].getD k 0) →
      (s.length = 13 → s.getD 12 0 = 3 ∨ s.getD 12 0 = 4) →
      decodeRef s = .error .shortRead ∧
      ∃ t, promptRun s.length (State.start s) = some (t, []) ∧ t.stream = [] ∧ t.itCount = 0 ∧
        t.phase = (if s.length = 0 then .notStarted else .parsingHeader) ∧ t.hdrCnt.val = s.length ∧ Waits t)

/-- R12, R159: in a run without reset from a fresh state with an empty iterator, the pixels delivered and those the iterator still
holds are the pixels counted; at the end of the run exactly `px_target` have been delivered. -/
def Obligations.DeliveredPixelsAreTheTarget : Prop :=
  ∀ (s t : State) (n : Nat) (out : List Pixel), s.Inv → s.phase = .notStarted → s.itCount = 0 → NoReset s.host →
    runOut n s = some (t, out) → t.phase ≠ .aborted →
    out.length + t.itCount.toNat = t.pxCount.toNat ∧ (t.ended → out.length = t.pxTarget.toNat)

/-- R204: a host that drains the iterator before it feeds and has 5 bytes for every pixel still owed reaches the end of the run. -/
def Obligations.EnoughBytesReachFinished : Prop :=
  ∀ s : State, s.Inv → s.phase = .parsingOp → s.opBusy = false →
    5 * (s.pxTarget.toNat - s.pxCount.toNat) ≤ s.stream.length →
    ∃ n t out, promptRun n s = some (t, out) ∧ t.ended ∧ n ≤ 6 * (s.pxTarget.toNat - s.pxCount.toNat) + s.itCount.toNat ∧
      out.length = s.itCount.toNat + (s.pxTarget.toNat - s.pxCount.toNat)

/-! ### The signal level -/

/-- R149, R16: what one clock cycle does, in every state and for every input. The power-on reset; the whole of `RESET()` before any
`FEED`, an offered byte not taken, with a `NEXT()` of the same cycle counted (log 21, DESIGN CHOICE); `NEXT()` where a pixel is valid
and ready; `FEED` where a byte is valid and the block ready; nothing where pixels are held and not taken, where no byte is offered, or
where one is offered in Aborted, which is not taken; and the packed pixel port. -/
def Obligations.ClockCyclePerformsOperations : Prop :=
  ∀ (p : PortsIn) (s : State),
    (p.rst = true → ∃ t, cycle p s = .next t ∧ step { s with host := .powerOn :: s.host } = .next t) ∧
    (p.rst = false → p.softReset = true → ∃ t u, cycle p s = .next t ∧ step { s with host := .reset :: s.host } = .next u ∧
      t = { u with itCount := t.itCount } ∧
      t.itCount.toNat = if s.itCount ≠ 0 ∧ p.pxReady = true then s.itCount.toNat - 1 else s.itCount.toNat) ∧
    (p.rst = false → p.softReset = false → s.itCount ≠ 0 → p.pxReady = true →
      ∃ t, cycle p s = .next t ∧ step { s with host := .next :: s.host } = .next t ∧ t.result = some (.yielded (some s.itPx))) ∧
    (p.rst = false → p.softReset = false → p.inValid = true → s.itCount = 0 → s.phase ≠ .aborted →
      ∃ t, cycle p s = .next t ∧ step { s with host := .feed :: s.host, stream := p.inByte :: s.stream } = .next t ∧
        evValid t = true) ∧
    (p.rst = false → p.softReset = false → s.itCount ≠ 0 → p.pxReady = false → cycle p s = .next { s with result := none }) ∧
    (p.rst = false → p.softReset = false → s.itCount = 0 → p.inValid = false ∨ s.phase = .aborted →
      cycle p s = .next { s with result := none }) ∧
    (pxData s).toNat = s.itPx.r.toNat * 2 ^ 24 + s.itPx.g.toNat * 2 ^ 16 + s.itPx.b.toNat * 2 ^ 8 + s.itPx.a.toNat

/-- R149, R24, R145, R171: what the output ports show of the state, with the codes and payloads of the spec's decisions D10 and D20, for
every event and every error the block can raise. Bits R149 gives no value are free (log 11) and nothing is said of them. -/
def Obligations.OutputPortsShowState : Prop :=
  ∀ s : State,
    (inReady s = true ↔ s.itCount = 0 ∧ s.phase ≠ .aborted) ∧ (pxValid s = true ↔ s.itCount ≠ 0) ∧
    [Phase.notStarted, .parsingHeader, .parsingOp, .finished, .aborted][(phasePort s).toNat]? = some s.phase ∧
    (evValid s = true ↔ (∃ e, s.result = some (.event e)) ∨ ∃ e, s.result = some (.error e)) ∧
    (∀ e, s.result = some (.event e) → evErr s = false) ∧ (∀ e, s.result = some (.error e) → evErr s = true) ∧
    (∀ n, n < 2 ^ 32 → s.result = some (.event (.needMore n)) → (evCode s).toNat = 0 ∧ (evArg s).toNat = n) ∧
    (∀ it, s.result = some (.event (.pixels it)) → (evCode s).toNat = 1) ∧
    (∀ w, s.result = some (.event (.imageWidthParsed w)) → (evCode s).toNat = 2 ∧ evArg s = w) ∧
    (∀ h, s.result = some (.event (.imageHeightParsed h)) → (evCode s).toNat = 3 ∧ evArg s = h) ∧
    (s.result = some (.event .imageChannelParsed) → (evCode s).toNat = 4) ∧
    (s.result = some (.event .imageColorspaceParsed) → (evCode s).toNat = 5) ∧
    (s.result = some (.event .finished) → (evCode s).toNat = 6) ∧
    (∀ (pos : Fin 4) got, s.result = some (.error (.badMagic pos.val got)) →
      (evCode s).toNat = 1 ∧ (evArg s).toNat % 2 ^ 16 = pos.val * 2 ^ 8 + got.toNat) ∧
    (∀ got, s.result = some (.error (.badChannels got)) → (evCode s).toNat = 2 ∧ (evArg s).toNat % 2 ^ 8 = got.toNat) ∧
    (∀ got, s.result = some (.error (.badColorspace got)) → (evCode s).toNat = 3 ∧ (evArg s).toNat % 2 ^ 8 = got.toNat) ∧
    (∀ got, s.result = some (.error (.unknownTag got)) → (evCode s).toNat = 5 ∧ (evArg s).toNat % 2 ^ 8 = got.toNat) ∧
    (∀ got, s.result = some (.error (.byteCountOverrun got)) → (evCode s).toNat = 6 ∧ (evArg s).toNat % 2 ^ 8 = got.toNat)
end

