-- ==== Sys2Proof/Laws/State.lean ====
section
/-! SUPPORT. What each shared operation leaves in each field of State; all true by rfl. -/

namespace Sys2Proof.Machine

/-! ### returnEvent -/

@[simp] theorem returnEvent_px (e : Event) (s : State) : (returnEvent e s).px = s.px := rfl
@[simp] theorem returnEvent_cache (e : Event) (s : State) : (returnEvent e s).cache = s.cache := rfl
@[simp] theorem returnEvent_phase (e : Event) (s : State) : (returnEvent e s).phase = s.phase := rfl
@[simp] theorem returnEvent_hdrCnt (e : Event) (s : State) : (returnEvent e s).hdrCnt = s.hdrCnt := rfl
@[simp] theorem returnEvent_opBusy (e : Event) (s : State) : (returnEvent e s).opBusy = s.opBusy := rfl
@[simp] theorem returnEvent_opTag (e : Event) (s : State) : (returnEvent e s).opTag = s.opTag := rfl
@[simp] theorem returnEvent_opNread (e : Event) (s : State) : (returnEvent e s).opNread = s.opNread := rfl
@[simp] theorem returnEvent_scratch (e : Event) (s : State) : (returnEvent e s).scratch = s.scratch := rfl
@[simp] theorem returnEvent_pxCount (e : Event) (s : State) : (returnEvent e s).pxCount = s.pxCount := rfl
@[simp] theorem returnEvent_pxTarget (e : Event) (s : State) : (returnEvent e s).pxTarget = s.pxTarget := rfl
@[simp] theorem returnEvent_itCount (e : Event) (s : State) : (returnEvent e s).itCount = s.itCount := rfl
@[simp] theorem returnEvent_itPx (e : Event) (s : State) : (returnEvent e s).itPx = s.itPx := rfl
@[simp] theorem returnEvent_result (e : Event) (s : State) : (returnEvent e s).result = some (.event e) := rfl
@[simp] theorem returnEvent_stream (e : Event) (s : State) : (returnEvent e s).stream = s.stream := rfl
@[simp] theorem returnEvent_host (e : Event) (s : State) : (returnEvent e s).host = s.host := rfl
@[simp] theorem returnEvent_draw (e : Event) (s : State) : (returnEvent e s).draw = s.draw := rfl

/-! ### toIdle -/

@[simp] theorem toIdle_px (s : State) : (toIdle s).px = s.px := rfl
@[simp] theorem toIdle_cache (s : State) : (toIdle s).cache = s.cache := rfl
@[simp] theorem toIdle_phase (s : State) : (toIdle s).phase = s.phase := rfl
@[simp] theorem toIdle_hdrCnt (s : State) : (toIdle s).hdrCnt = s.hdrCnt := rfl
@[simp] theorem toIdle_opBusy (s : State) : (toIdle s).opBusy = false := rfl
@[simp] theorem toIdle_opTag (s : State) : (toIdle s).opTag = 0 := rfl
@[simp] theorem toIdle_opNread (s : State) : (toIdle s).opNread = 0 := rfl
@[simp] theorem toIdle_scratch (s : State) : (toIdle s).scratch = s.scratch := rfl
@[simp] theorem toIdle_pxCount (s : State) : (toIdle s).pxCount = s.pxCount := rfl
@[simp] theorem toIdle_pxTarget (s : State) : (toIdle s).pxTarget = s.pxTarget := rfl
@[simp] theorem toIdle_itCount (s : State) : (toIdle s).itCount = s.itCount := rfl
@[simp] theorem toIdle_itPx (s : State) : (toIdle s).itPx = s.itPx := rfl
@[simp] theorem toIdle_result (s : State) : (toIdle s).result = s.result := rfl
@[simp] theorem toIdle_stream (s : State) : (toIdle s).stream = s.stream := rfl
@[simp] theorem toIdle_host (s : State) : (toIdle s).host = s.host := rfl
@[simp] theorem toIdle_draw (s : State) : (toIdle s).draw = s.draw := rfl

/-! ### emit -/

@[simp] theorem emit_px (k : Nat) (s : State) : (emit k s).px = s.px := rfl
@[simp] theorem emit_cache (k : Nat) (s : State) : (emit k s).cache = s.cache := rfl
@[simp] theorem emit_phase (k : Nat) (s : State) : (emit k s).phase = s.phase := rfl
@[simp] theorem emit_hdrCnt (k : Nat) (s : State) : (emit k s).hdrCnt = s.hdrCnt := rfl
@[simp] theorem emit_opBusy (k : Nat) (s : State) : (emit k s).opBusy = false := rfl
@[simp] theorem emit_opTag (k : Nat) (s : State) : (emit k s).opTag = 0 := rfl
@[simp] theorem emit_opNread (k : Nat) (s : State) : (emit k s).opNread = 0 := rfl
@[simp] theorem emit_scratch (k : Nat) (s : State) : (emit k s).scratch = s.scratch := rfl
@[simp] theorem emit_pxCount (k : Nat) (s : State) : (emit k s).pxCount = s.pxCount + BitVec.ofNat 64 k := rfl
@[simp] theorem emit_pxTarget (k : Nat) (s : State) : (emit k s).pxTarget = s.pxTarget := rfl
@[simp] theorem emit_itCount (k : Nat) (s : State) : (emit k s).itCount = BitVec.ofNat 8 k := rfl
@[simp] theorem emit_itPx (k : Nat) (s : State) : (emit k s).itPx = s.px := rfl
@[simp] theorem emit_result (k : Nat) (s : State) : (emit k s).result = some (.event (.pixels ⟨BitVec.ofNat 8 k, s.px⟩)) := rfl
@[simp] theorem emit_stream (k : Nat) (s : State) : (emit k s).stream = s.stream := rfl
@[simp] theorem emit_host (k : Nat) (s : State) : (emit k s).host = s.host := rfl
@[simp] theorem emit_draw (k : Nat) (s : State) : (emit k s).draw = s.draw := rfl

/-! ### complete -/

@[simp] theorem complete_px (p : Pixel) (m : Cache) (s : State) : (complete p m s).px = p := rfl
@[simp] theorem complete_cache (p : Pixel) (m : Cache) (s : State) : (complete p m s).cache = m := rfl
@[simp] theorem complete_phase (p : Pixel) (m : Cache) (s : State) : (complete p m s).phase = s.phase := rfl
@[simp] theorem complete_hdrCnt (p : Pixel) (m : Cache) (s : State) : (complete p m s).hdrCnt = s.hdrCnt := rfl
@[simp] theorem complete_opBusy (p : Pixel) (m : Cache) (s : State) : (complete p m s).opBusy = false := rfl
@[simp] theorem complete_opTag (p : Pixel) (m : Cache) (s : State) : (complete p m s).opTag = 0 := rfl
@[simp] theorem complete_opNread (p : Pixel) (m : Cache) (s : State) : (complete p m s).opNread = 0 := rfl
@[simp] theorem complete_scratch (p : Pixel) (m : Cache) (s : State) : (complete p m s).scratch = s.scratch := rfl
@[simp] theorem complete_pxCount (p : Pixel) (m : Cache) (s : State) : (complete p m s).pxCount = s.pxCount + BitVec.ofNat 64 1 := rfl
@[simp] theorem complete_pxTarget (p : Pixel) (m : Cache) (s : State) : (complete p m s).pxTarget = s.pxTarget := rfl
@[simp] theorem complete_itCount (p : Pixel) (m : Cache) (s : State) : (complete p m s).itCount = BitVec.ofNat 8 1 := rfl
@[simp] theorem complete_itPx (p : Pixel) (m : Cache) (s : State) : (complete p m s).itPx = p := rfl
@[simp] theorem complete_result (p : Pixel) (m : Cache) (s : State) : (complete p m s).result = some (.event (.pixels ⟨BitVec.ofNat 8 1, p⟩)) := rfl
@[simp] theorem complete_stream (p : Pixel) (m : Cache) (s : State) : (complete p m s).stream = s.stream := rfl
@[simp] theorem complete_host (p : Pixel) (m : Cache) (s : State) : (complete p m s).host = s.host := rfl
@[simp] theorem complete_draw (p : Pixel) (m : Cache) (s : State) : (complete p m s).draw = s.draw := rfl

/-! ### resetDecoder -/

@[simp] theorem resetDecoder_px (s : State) : (resetDecoder s).px = Pixel.start := rfl
@[simp] theorem resetDecoder_cache (s : State) : (resetDecoder s).cache = Vector.replicate 64 Pixel.zero := rfl
@[simp] theorem resetDecoder_phase (s : State) : (resetDecoder s).phase = .notStarted := rfl
@[simp] theorem resetDecoder_hdrCnt (s : State) : (resetDecoder s).hdrCnt = 0 := rfl
@[simp] theorem resetDecoder_opBusy (s : State) : (resetDecoder s).opBusy = false := rfl
@[simp] theorem resetDecoder_opTag (s : State) : (resetDecoder s).opTag = 0 := rfl
@[simp] theorem resetDecoder_opNread (s : State) : (resetDecoder s).opNread = 0 := rfl
@[simp] theorem resetDecoder_scratch (s : State) : (resetDecoder s).scratch = Vector.replicate 4 0 := rfl
@[simp] theorem resetDecoder_pxCount (s : State) : (resetDecoder s).pxCount = 0 := rfl
@[simp] theorem resetDecoder_pxTarget (s : State) : (resetDecoder s).pxTarget = 0 := rfl
@[simp] theorem resetDecoder_itCount (s : State) : (resetDecoder s).itCount = s.itCount := rfl
@[simp] theorem resetDecoder_itPx (s : State) : (resetDecoder s).itPx = s.itPx := rfl
@[simp] theorem resetDecoder_result (s : State) : (resetDecoder s).result = none := rfl
@[simp] theorem resetDecoder_stream (s : State) : (resetDecoder s).stream = s.stream := rfl
@[simp] theorem resetDecoder_host (s : State) : (resetDecoder s).host = s.host := rfl
@[simp] theorem resetDecoder_draw (s : State) : (resetDecoder s).draw = s.draw := rfl

/-! ### powerOn -/

@[simp] theorem powerOn_px (s : State) : (powerOn s).px = Pixel.start := rfl
@[simp] theorem powerOn_cache (s : State) : (powerOn s).cache = Vector.replicate 64 Pixel.zero := rfl
@[simp] theorem powerOn_phase (s : State) : (powerOn s).phase = .notStarted := rfl
@[simp] theorem powerOn_hdrCnt (s : State) : (powerOn s).hdrCnt = 0 := rfl
@[simp] theorem powerOn_opBusy (s : State) : (powerOn s).opBusy = false := rfl
@[simp] theorem powerOn_opTag (s : State) : (powerOn s).opTag = 0 := rfl
@[simp] theorem powerOn_opNread (s : State) : (powerOn s).opNread = 0 := rfl
@[simp] theorem powerOn_scratch (s : State) : (powerOn s).scratch = Vector.replicate 4 0 := rfl
@[simp] theorem powerOn_pxCount (s : State) : (powerOn s).pxCount = 0 := rfl
@[simp] theorem powerOn_pxTarget (s : State) : (powerOn s).pxTarget = 0 := rfl
@[simp] theorem powerOn_itCount (s : State) : (powerOn s).itCount = 0 := rfl
@[simp] theorem powerOn_itPx (s : State) : (powerOn s).itPx = Pixel.start := rfl
@[simp] theorem powerOn_result (s : State) : (powerOn s).result = none := rfl
@[simp] theorem powerOn_stream (s : State) : (powerOn s).stream = s.stream := rfl
@[simp] theorem powerOn_host (s : State) : (powerOn s).host = s.host := rfl
@[simp] theorem powerOn_draw (s : State) : (powerOn s).draw = s.draw := rfl

/-! ### raise -/

@[simp] theorem raise_phase (e : Err) (s : State) : (raise e s).phase = .aborted := rfl
@[simp] theorem raise_itCount (e : Err) (s : State) : (raise e s).itCount = s.itCount := rfl
@[simp] theorem raise_itPx (e : Err) (s : State) : (raise e s).itPx = s.itPx := rfl
@[simp] theorem raise_result (e : Err) (s : State) : (raise e s).result = some (.error e) := rfl
@[simp] theorem raise_stream (e : Err) (s : State) : (raise e s).stream = s.stream := rfl
@[simp] theorem raise_host (e : Err) (s : State) : (raise e s).host = s.host := rfl
@[simp] theorem raise_draw (e : Err) (s : State) : (raise e s).draw = s.draw + 1 := rfl

/-! ### gatherTag -/

@[simp] theorem gatherTag_px (b : Byte) (s : State) : (gatherTag b s).px = s.px := rfl
@[simp] theorem gatherTag_cache (b : Byte) (s : State) : (gatherTag b s).cache = s.cache := rfl
@[simp] theorem gatherTag_phase (b : Byte) (s : State) : (gatherTag b s).phase = s.phase := rfl
@[simp] theorem gatherTag_hdrCnt (b : Byte) (s : State) : (gatherTag b s).hdrCnt = s.hdrCnt := rfl
@[simp] theorem gatherTag_opBusy (b : Byte) (s : State) : (gatherTag b s).opBusy = true := rfl
@[simp] theorem gatherTag_opTag (b : Byte) (s : State) : (gatherTag b s).opTag = b := rfl
@[simp] theorem gatherTag_opNread (b : Byte) (s : State) : (gatherTag b s).opNread = 0 := rfl
@[simp] theorem gatherTag_scratch (b : Byte) (s : State) : (gatherTag b s).scratch = s.scratch := rfl
@[simp] theorem gatherTag_pxCount (b : Byte) (s : State) : (gatherTag b s).pxCount = s.pxCount := rfl
@[simp] theorem gatherTag_pxTarget (b : Byte) (s : State) : (gatherTag b s).pxTarget = s.pxTarget := rfl
@[simp] theorem gatherTag_itCount (b : Byte) (s : State) : (gatherTag b s).itCount = s.itCount := rfl
@[simp] theorem gatherTag_itPx (b : Byte) (s : State) : (gatherTag b s).itPx = s.itPx := rfl
@[simp] theorem gatherTag_result (b : Byte) (s : State) : (gatherTag b s).result = s.result := rfl
@[simp] theorem gatherTag_stream (b : Byte) (s : State) : (gatherTag b s).stream = s.stream := rfl
@[simp] theorem gatherTag_host (b : Byte) (s : State) : (gatherTag b s).host = s.host := rfl
@[simp] theorem gatherTag_draw (b : Byte) (s : State) : (gatherTag b s).draw = s.draw := rfl

/-! ### gatherOperand -/

@[simp] theorem gatherOperand_px (b : Byte) (s : State) : (gatherOperand b s).px = s.px := rfl
@[simp] theorem gatherOperand_cache (b : Byte) (s : State) : (gatherOperand b s).cache = s.cache := rfl
@[simp] theorem gatherOperand_phase (b : Byte) (s : State) : (gatherOperand b s).phase = s.phase := rfl
@[simp] theorem gatherOperand_hdrCnt (b : Byte) (s : State) : (gatherOperand b s).hdrCnt = s.hdrCnt := rfl
@[simp] theorem gatherOperand_opBusy (b : Byte) (s : State) : (gatherOperand b s).opBusy = s.opBusy := rfl
@[simp] theorem gatherOperand_opTag (b : Byte) (s : State) : (gatherOperand b s).opTag = s.opTag := rfl
@[simp] theorem gatherOperand_opNread (b : Byte) (s : State) : (gatherOperand b s).opNread = s.opNread + 1 := rfl
@[simp] theorem gatherOperand_scratch (b : Byte) (s : State) : (gatherOperand b s).scratch = scratchSet s.scratch s.opNread.toNat b := rfl
@[simp] theorem gatherOperand_pxCount (b : Byte) (s : State) : (gatherOperand b s).pxCount = s.pxCount := rfl
@[simp] theorem gatherOperand_pxTarget (b : Byte) (s : State) : (gatherOperand b s).pxTarget = s.pxTarget := rfl
@[simp] theorem gatherOperand_itCount (b : Byte) (s : State) : (gatherOperand b s).itCount = s.itCount := rfl
@[simp] theorem gatherOperand_itPx (b : Byte) (s : State) : (gatherOperand b s).itPx = s.itPx := rfl
@[simp] theorem gatherOperand_result (b : Byte) (s : State) : (gatherOperand b s).result = s.result := rfl
@[simp] theorem gatherOperand_stream (b : Byte) (s : State) : (gatherOperand b s).stream = s.stream := rfl
@[simp] theorem gatherOperand_host (b : Byte) (s : State) : (gatherOperand b s).host = s.host := rfl
@[simp] theorem gatherOperand_draw (b : Byte) (s : State) : (gatherOperand b s).draw = s.draw := rfl

/-! ### gatherHeader -/

@[simp] theorem gatherHeader_px (b : Byte) (i : Nat) (s : State) : (gatherHeader b i s).px = s.px := rfl
@[simp] theorem gatherHeader_cache (b : Byte) (i : Nat) (s : State) : (gatherHeader b i s).cache = s.cache := rfl
@[simp] theorem gatherHeader_phase (b : Byte) (i : Nat) (s : State) : (gatherHeader b i s).phase = s.phase := rfl
@[simp] theorem gatherHeader_hdrCnt (b : Byte) (i : Nat) (s : State) : (gatherHeader b i s).hdrCnt = hdrNext s.hdrCnt := rfl
@[simp] theorem gatherHeader_opBusy (b : Byte) (i : Nat) (s : State) : (gatherHeader b i s).opBusy = s.opBusy := rfl
@[simp] theorem gatherHeader_opTag (b : Byte) (i : Nat) (s : State) : (gatherHeader b i s).opTag = s.opTag := rfl
@[simp] theorem gatherHeader_opNread (b : Byte) (i : Nat) (s : State) : (gatherHeader b i s).opNread = s.opNread := rfl
@[simp] theorem gatherHeader_scratch (b : Byte) (i : Nat) (s : State) : (gatherHeader b i s).scratch = scratchSet s.scratch i b := rfl
@[simp] theorem gatherHeader_pxCount (b : Byte) (i : Nat) (s : State) : (gatherHeader b i s).pxCount = s.pxCount := rfl
@[simp] theorem gatherHeader_pxTarget (b : Byte) (i : Nat) (s : State) : (gatherHeader b i s).pxTarget = s.pxTarget := rfl
@[simp] theorem gatherHeader_itCount (b : Byte) (i : Nat) (s : State) : (gatherHeader b i s).itCount = s.itCount := rfl
@[simp] theorem gatherHeader_itPx (b : Byte) (i : Nat) (s : State) : (gatherHeader b i s).itPx = s.itPx := rfl
@[simp] theorem gatherHeader_result (b : Byte) (i : Nat) (s : State) : (gatherHeader b i s).result = s.result := rfl
@[simp] theorem gatherHeader_stream (b : Byte) (i : Nat) (s : State) : (gatherHeader b i s).stream = s.stream := rfl
@[simp] theorem gatherHeader_host (b : Byte) (i : Nat) (s : State) : (gatherHeader b i s).host = s.host := rfl
@[simp] theorem gatherHeader_draw (b : Byte) (i : Nat) (s : State) : (gatherHeader b i s).draw = s.draw := rfl

/-! ### taken -/

@[simp] theorem taken_px (s : State) (bs : List Byte) (ops : List HostOp) : (State.taken s bs ops).px = s.px := rfl
@[simp] theorem taken_cache (s : State) (bs : List Byte) (ops : List HostOp) : (State.taken s bs ops).cache = s.cache := rfl
@[simp] theorem taken_phase (s : State) (bs : List Byte) (ops : List HostOp) : (State.taken s bs ops).phase = s.phase := rfl
@[simp] theorem taken_hdrCnt (s : State) (bs : List Byte) (ops : List HostOp) : (State.taken s bs ops).hdrCnt = s.hdrCnt := rfl
@[simp] theorem taken_opBusy (s : State) (bs : List Byte) (ops : List HostOp) : (State.taken s bs ops).opBusy = s.opBusy := rfl
@[simp] theorem taken_opTag (s : State) (bs : List Byte) (ops : List HostOp) : (State.taken s bs ops).opTag = s.opTag := rfl
@[simp] theorem taken_opNread (s : State) (bs : List Byte) (ops : List HostOp) : (State.taken s bs ops).opNread = s.opNread := rfl
@[simp] theorem taken_scratch (s : State) (bs : List Byte) (ops : List HostOp) : (State.taken s bs ops).scratch = s.scratch := rfl
@[simp] theorem taken_pxCount (s : State) (bs : List Byte) (ops : List HostOp) : (State.taken s bs ops).pxCount = s.pxCount := rfl
@[simp] theorem taken_pxTarget (s : State) (bs : List Byte) (ops : List HostOp) : (State.taken s bs ops).pxTarget = s.pxTarget := rfl
@[simp] theorem taken_itCount (s : State) (bs : List Byte) (ops : List HostOp) : (State.taken s bs ops).itCount = s.itCount := rfl
@[simp] theorem taken_itPx (s : State) (bs : List Byte) (ops : List HostOp) : (State.taken s bs ops).itPx = s.itPx := rfl
@[simp] theorem taken_result (s : State) (bs : List Byte) (ops : List HostOp) : (State.taken s bs ops).result = none := rfl
@[simp] theorem taken_stream (s : State) (bs : List Byte) (ops : List HostOp) : (State.taken s bs ops).stream = bs := rfl
@[simp] theorem taken_host (s : State) (bs : List Byte) (ops : List HostOp) : (State.taken s bs ops).host = ops := rfl
@[simp] theorem taken_draw (s : State) (bs : List Byte) (ops : List HostOp) : (State.taken s bs ops).draw = s.draw := rfl

end Sys2Proof.Machine
end

