-- ==== Sys2Proof/Laws/Decode.lean ====
section
/-! SUPPORT. What the decoder and its field helpers do, said once. -/

namespace Sys2Proof

theorem field_toNat (t : Byte) (lo w : Nat) : (field t lo w).toNat = t.toNat / 2 ^ lo % 2 ^ w := by
  simp [field, Nat.shiftRight_eq_div_pow]

theorem be32_toNat (b0 b1 b2 b3 : Byte) :
    (be32 b0 b1 b2 b3).toNat = b0.toNat * 2 ^ 24 + b1.toNat * 2 ^ 16 + b2.toNat * 2 ^ 8 + b3.toNat := by
  have h0 := b0.isLt; have h1 := b1.isLt; have h2 := b2.isLt; have h3 := b3.isLt
  simp only [be32, BitVec.toNat_append, Nat.shiftLeft_eq]
  rw [← Nat.shiftLeft_eq b0.toNat, ← Nat.shiftLeft_add_eq_or_of_lt (by omega),
    ← Nat.shiftLeft_eq, ← Nat.shiftLeft_add_eq_or_of_lt (by omega),
    ← Nat.shiftLeft_eq, ← Nat.shiftLeft_add_eq_or_of_lt (by omega)]
  simp only [Nat.shiftLeft_eq]
  omega

theorem be32Byte_toNat (v : BitVec 32) (i : Nat) : (be32Byte v i).toNat = v.toNat / 2 ^ (24 - 8 * i) % 256 := by
  simp [be32Byte, Nat.shiftRight_eq_div_pow]

/-- A 32-bit value is its four bytes. -/
theorem be32_bytes (v : BitVec 32) : be32 (be32Byte v 0) (be32Byte v 1) (be32Byte v 2) (be32Byte v 3) = v := by
  apply BitVec.eq_of_toNat_eq
  have := v.isLt
  simp only [be32_toNat, be32Byte_toNat]
  omega

/-- Each byte of a 32-bit value is the byte it was made of. -/
theorem be32Byte_be32 (b0 b1 b2 b3 : Byte) :
    be32Byte (be32 b0 b1 b2 b3) 0 = b0 ∧ be32Byte (be32 b0 b1 b2 b3) 1 = b1 ∧
    be32Byte (be32 b0 b1 b2 b3) 2 = b2 ∧ be32Byte (be32 b0 b1 b2 b3) 3 = b3 := by
  have h0 := b0.isLt; have h1 := b1.isLt; have h2 := b2.isLt; have h3 := b3.isLt
  refine ⟨?_, ?_, ?_, ?_⟩ <;> apply BitVec.eq_of_toNat_eq <;> simp only [be32_toNat, be32Byte_toNat] <;> omega

set_option maxRecDepth 4000 in
/-- The opcode map by value (R73). -/
theorem classify_eq (t : Byte) : classify t =
    if t.toNat < 64 then .index else if t.toNat < 128 then .diff else if t.toNat < 192 then .luma
    else if t.toNat < 254 then .run else if t.toNat < 255 then .rgb else .rgba := by
  revert t; decide

theorem classify_rgb_iff (t : Byte) : classify t = .rgb ↔ t = 0xFE := by
  rw [classify_eq, ← BitVec.toNat_inj]; have := t.isLt; simp; split_ifs <;> simp <;> omega

theorem classify_rgba_iff (t : Byte) : classify t = .rgba ↔ t = 0xFF := by
  rw [classify_eq, ← BitVec.toNat_inj]; have := t.isLt; simp; split_ifs <;> simp <;> omega

theorem classify_index_iff (t : Byte) : classify t = .index ↔ t.toNat < 64 := by
  rw [classify_eq]; split_ifs <;> simp <;> omega

theorem classify_diff_iff (t : Byte) : classify t = .diff ↔ 64 ≤ t.toNat ∧ t.toNat < 128 := by
  rw [classify_eq]; split_ifs <;> simp <;> omega

theorem classify_luma_iff (t : Byte) : classify t = .luma ↔ 128 ≤ t.toNat ∧ t.toNat < 192 := by
  rw [classify_eq]; split_ifs <;> simp <;> omega

theorem classify_run_iff (t : Byte) : classify t = .run ↔ 192 ≤ t.toNat ∧ t.toNat < 254 := by
  rw [classify_eq]; split_ifs <;> simp <;> omega

/-- Operand bytes of another number than the opcode has are no whole opcode (R71, R136). -/
theorem decodeOpcode_notWhole (t : Byte) (ops : List Byte) (h : ops.length ≠ oplen (classify t)) :
    decodeOpcode (t :: ops) = notWhole t (oplen (classify t)) ops.length := by
  simp only [decodeOpcode, decodeTag]
  cases hc : classify t <;> rw [hc] at h <;> simp only [oplen] at h ⊢ <;> split <;> first | rfl | (exfalso; simp_all)

/-- Too few operand bytes: the decoder asks for the rest (R71). -/
theorem decodeOpcode_short (t : Byte) (ops : List Byte) (h : ops.length < oplen (classify t)) :
    decodeOpcode (t :: ops) = .needMore (oplen (classify t) - ops.length) := by
  rw [decodeOpcode_notWhole t ops (by omega)]; simp [notWhole, h]

/-- Too many operand bytes: the decoder rejects, by the tag or by the count (R136). -/
theorem decodeOpcode_long (t : Byte) (ops : List Byte) (h : oplen (classify t) < ops.length) :
    decodeOpcode (t :: ops) = .reject (if oplen (classify t) = 0 then .unknownTag t else .byteCountOverrun) := by
  rw [decodeOpcode_notWhole t ops (by omega)]
  simp only [notWhole, if_neg (Nat.not_lt.2 (Nat.le_of_lt h))]
  split_ifs <;> rfl

theorem decodeOpcode_rgb {t : Byte} (h : classify t = .rgb) (r g b : Byte) : decodeOpcode [t, r, g, b] = .done (.rgb r g b) := by
  simp only [decodeOpcode, decodeTag, h]

theorem decodeOpcode_rgba {t : Byte} (h : classify t = .rgba) (r g b a : Byte) :
    decodeOpcode [t, r, g, b, a] = .done (.rgba r g b a) := by
  simp only [decodeOpcode, decodeTag, h]

theorem decodeOpcode_index {t : Byte} (h : classify t = .index) : decodeOpcode [t] = .done (.index (field t 0 6)) := by
  simp only [decodeOpcode, decodeTag, h]

theorem decodeOpcode_diff {t : Byte} (h : classify t = .diff) :
    decodeOpcode [t] = .done (.diff (field t 4 2) (field t 2 2) (field t 0 2)) := by
  simp only [decodeOpcode, decodeTag, h]

theorem decodeOpcode_luma {t : Byte} (h : classify t = .luma) (n : Byte) :
    decodeOpcode [t, n] = .done (.luma (field t 0 6) (field n 4 4) (field n 0 4)) := by
  simp only [decodeOpcode, decodeTag, h]

theorem decodeOpcode_run {t : Byte} (h : classify t = .run) : decodeOpcode [t] = .done (.run (field t 0 6)) := by
  simp only [decodeOpcode, decodeTag, h]

theorem notWhole_not_done (t : Byte) (len got : Nat) (i : Instr) : notWhole t len got ≠ .done i := by
  unfold notWhole; split_ifs <;> simp

/-- Everything the opcode decoder can answer `done` to: six shapes, by the class of the tag. -/
theorem decodeOpcode_done {bs : List Byte} {i : Instr} (h : decodeOpcode bs = .done i) :
    (∃ t r g b, bs = [t, r, g, b] ∧ classify t = .rgb ∧ i = .rgb r g b) ∨
    (∃ t r g b a, bs = [t, r, g, b, a] ∧ classify t = .rgba ∧ i = .rgba r g b a) ∨
    (∃ t, bs = [t] ∧ classify t = .index ∧ i = .index (field t 0 6)) ∨
    (∃ t, bs = [t] ∧ classify t = .diff ∧ i = .diff (field t 4 2) (field t 2 2) (field t 0 2)) ∨
    (∃ t n, bs = [t, n] ∧ classify t = .luma ∧ i = .luma (field t 0 6) (field n 4 4) (field n 0 4)) ∨
    (∃ t, bs = [t] ∧ classify t = .run ∧ i = .run (field t 0 6)) := by
  match bs, h with
  | [], h => cases h
  | t :: ops, h =>
    simp only [decodeOpcode, decodeTag] at h
    cases hc : classify t <;> simp only [hc] at h <;> split at h <;>
      first
        | exact absurd h (notWhole_not_done _ _ _ _)
        | (cases h; simp_all)

/-- Everything the magic decoder can answer `done` to: the magic bytes before a position, and the byte there. -/
theorem decodeMagic_done {bs : List Byte} {i : Instr} (h : decodeMagic bs = .done i) :
    ∃ (c : Fin 4) (b : Byte), bs = magicBytes.take c.val ++ [b] ∧ i = .hdrMagic c b := by
  unfold decodeMagic at h
  split at h
  · cases h
  · rename_i b; cases h; exact ⟨0, b, by simp, rfl⟩
  · rename_i m0 b; split_ifs at h with hm; cases h; exact ⟨1, b, by simp [← hm], rfl⟩
  · rename_i m0 m1 b; split_ifs at h with hm; cases h; exact ⟨2, b, by simp [← hm], rfl⟩
  · rename_i m0 m1 m2 b; split_ifs at h with hm; cases h; exact ⟨3, b, by simp [← hm], rfl⟩
  · cases h

theorem decodeMagic_take (c : Fin 4) (b : Byte) : decodeMagic (magicBytes.take c.val ++ [b]) = .done (.hdrMagic c b) := by
  fin_cases c <;> simp [magicBytes, decodeMagic]

theorem decodeWord_done {mk : BitVec 32 → Instr} {bs : List Byte} {i : Instr} (h : decodeWord mk bs = .done i) :
    ∃ b0 b1 b2 b3, bs = [b0, b1, b2, b3] ∧ i = mk (be32 b0 b1 b2 b3) := by
  unfold decodeWord at h
  split at h
  · rename_i b0 b1 b2 b3; cases h; exact ⟨b0, b1, b2, b3, rfl, rfl⟩
  · split_ifs at h

theorem decodeWord_short (mk : BitVec 32 → Instr) (bs : List Byte) (h : bs.length < 4) :
    decodeWord mk bs = .needMore (4 - bs.length) := by
  match bs, h with
  | [], _ => simp [decodeWord]
  | [_], _ => simp [decodeWord]
  | [_, _], _ => simp [decodeWord]
  | [_, _, _], _ => simp [decodeWord]
  | _ :: _ :: _ :: _ :: l, h => exfalso; simp at h; omega

theorem decodeByte_done {mk : Byte → Instr} {bs : List Byte} {i : Instr} (h : decodeByte mk bs = .done i) :
    ∃ b, bs = [b] ∧ i = mk b := by
  unfold decodeByte at h
  split at h
  · rename_i b; cases h; exact ⟨b, rfl, rfl⟩
  · cases h
  · cases h

end Sys2Proof
end

