-- ==== Sys2Proof/Laws/Ops.lean ====
section
/-! SUPPORT. One spec lemma per shared operation: the hash, the cache, the scratch buffer, the Finished check, the meanings. -/

namespace Sys2Proof.Machine

theorem hash_toNat (p : Pixel) : (hash p).toNat = hashSum p % 256 := by
  have e3 : (3 : Byte).toNat = 3 := rfl
  have e5 : (5 : Byte).toNat = 5 := rfl
  have e7 : (7 : Byte).toNat = 7 := rfl
  have e11 : (11 : Byte).toNat = 11 := rfl
  simp only [hash, hashSum, BitVec.toNat_add, BitVec.toNat_mul, e3, e5, e7, e11]
  omega

theorem slot_toNat (p : Pixel) : (slot p).toNat = hashSum p % 64 := by
  have := field_toNat (hash p) 0 6
  simp only [slot, this, hash_toNat]
  omega

theorem slot_start : slot Pixel.start = 53 := by decide

theorem slot_zero : slot Pixel.zero = 0 := by decide

/-- Read after write, for every slot (R56, R58). -/
@[simp] theorem cacheRead_cacheSet (m : Cache) (i j : BitVec 6) (p : Pixel) :
    cacheRead (cacheSet m i p) j = if j = i then p else cacheRead m j := by
  simp only [cacheRead, cacheSet, Vector.getElem_set, BitVec.toNat_inj]
  by_cases h : i = j <;> simp [h, eq_comm]

@[simp] theorem cacheRead_cachePut (m : Cache) (p : Pixel) (j : BitVec 6) :
    cacheRead (cachePut m p) j = if j = slot p then p else cacheRead m j := cacheRead_cacheSet m (slot p) j p

@[simp] theorem cacheRead_zeros (i : BitVec 6) : cacheRead Cache.zeros i = Pixel.zero := by
  simp [cacheRead, Cache.zeros]

/-- Two caches that read alike in every slot are equal. -/
theorem cache_ext {m m' : Cache} (h : ∀ i, cacheRead m i = cacheRead m' i) : m = m' := by
  apply Vector.ext
  intro i hi
  have := h (BitVec.ofNat 6 i)
  simpa [cacheRead, Nat.mod_eq_of_lt hi] using this

/-- `INDEX_WRITES_CACHE` of this hardware is true (R8). -/
@[simp] theorem cachePutIndexed_hw (m : Cache) (p : Pixel) : cachePutIndexed Config.indexWritesCache m p = cachePut m p := rfl

/-- `RUN_OVERRUN_POLICY` of this hardware is clamp (R8). -/
@[simp] theorem runEmits_hw (n left : Nat) : runEmits Config.runOverrun n left = min n left := rfl

theorem allProduced_hw (s : State) : allProduced Config.runOverrun s = true ↔ s.pxCount = s.pxTarget := by
  simp [allProduced, Config.runOverrun]

theorem scratchSet_get (m : Scratch) (i : Nat) (b : Byte) (j : Nat) (hj : j < 4) :
    (scratchSet m i b)[j] = if j = i then b else m[j] := by
  simp only [scratchSet, Vector.getElem_setIfInBounds]
  by_cases h : i = j <;> simp [h, eq_comm]

/-- The first four bytes of the scratch buffer as a list. -/
theorem scratch_toList (m : Scratch) : m.toList = [m[0], m[1], m[2], m[3]] := by
  apply List.ext_getElem
  · simp
  · intro i h1 h2
    simp at h1
    match i, h1 with
    | 0, _ => simp
    | 1, _ => simp
    | 2, _ => simp
    | 3, _ => simp

/-! ### The Finished check -/

theorem finishedCheck_fires {s : State} (h : s.phase = .parsingOp) (hc : s.pxCount = s.pxTarget) :
    finishedCheck s = { toIdle s with phase := .finished } := by
  simp [finishedCheck, h, allProduced_hw, hc]

theorem finishedCheck_other {s : State} (h : s.phase ≠ .parsingOp) : finishedCheck s = s := by
  simp [finishedCheck, h]

theorem finishedCheck_owing {s : State} (h : s.pxCount ≠ s.pxTarget) : finishedCheck s = s := by
  simp [finishedCheck, allProduced_hw, h]

/-- The check fires, or it leaves the state as it is and would not fire again. -/
theorem finishedCheck_cases (s : State) :
    (s.phase = .parsingOp ∧ s.pxCount = s.pxTarget ∧ finishedCheck s = { toIdle s with phase := .finished }) ∨
    ((s.phase = .parsingOp → s.pxCount ≠ s.pxTarget) ∧ finishedCheck s = s) := by
  by_cases h : s.phase = .parsingOp <;> by_cases hc : s.pxCount = s.pxTarget
  · exact .inl ⟨h, hc, finishedCheck_fires h hc⟩
  · exact .inr ⟨fun _ => hc, finishedCheck_owing hc⟩
  · exact .inr ⟨fun h' => absurd h' h, finishedCheck_other h⟩
  · exact .inr ⟨fun h' => absurd h' h, finishedCheck_other h⟩

/-- The check writes `phase` and the opcode registers and nothing else. -/
theorem finishedCheck_frame (s : State) :
    (finishedCheck s).px = s.px ∧ (finishedCheck s).cache = s.cache ∧ (finishedCheck s).hdrCnt = s.hdrCnt ∧
    (finishedCheck s).scratch = s.scratch ∧ (finishedCheck s).pxCount = s.pxCount ∧ (finishedCheck s).pxTarget = s.pxTarget ∧
    (finishedCheck s).itCount = s.itCount ∧ (finishedCheck s).itPx = s.itPx ∧ (finishedCheck s).result = s.result ∧
    (finishedCheck s).stream = s.stream ∧ (finishedCheck s).host = s.host ∧ (finishedCheck s).draw = s.draw := by
  rcases finishedCheck_cases s with ⟨_, _, h⟩ | ⟨_, h⟩ <;> simp [h]

@[simp] theorem finishedCheck_px (s : State) : (finishedCheck s).px = s.px := (finishedCheck_frame s).1
@[simp] theorem finishedCheck_cache (s : State) : (finishedCheck s).cache = s.cache := (finishedCheck_frame s).2.1
@[simp] theorem finishedCheck_hdrCnt (s : State) : (finishedCheck s).hdrCnt = s.hdrCnt := (finishedCheck_frame s).2.2.1
@[simp] theorem finishedCheck_scratch (s : State) : (finishedCheck s).scratch = s.scratch := (finishedCheck_frame s).2.2.2.1
@[simp] theorem finishedCheck_pxCount (s : State) : (finishedCheck s).pxCount = s.pxCount := (finishedCheck_frame s).2.2.2.2.1
@[simp] theorem finishedCheck_pxTarget (s : State) : (finishedCheck s).pxTarget = s.pxTarget := (finishedCheck_frame s).2.2.2.2.2.1
@[simp] theorem finishedCheck_itCount (s : State) : (finishedCheck s).itCount = s.itCount := (finishedCheck_frame s).2.2.2.2.2.2.1
@[simp] theorem finishedCheck_itPx (s : State) : (finishedCheck s).itPx = s.itPx := (finishedCheck_frame s).2.2.2.2.2.2.2.1
@[simp] theorem finishedCheck_result (s : State) : (finishedCheck s).result = s.result := (finishedCheck_frame s).2.2.2.2.2.2.2.2.1
@[simp] theorem finishedCheck_stream (s : State) : (finishedCheck s).stream = s.stream := (finishedCheck_frame s).2.2.2.2.2.2.2.2.2.1
@[simp] theorem finishedCheck_host (s : State) : (finishedCheck s).host = s.host := (finishedCheck_frame s).2.2.2.2.2.2.2.2.2.2.1
@[simp] theorem finishedCheck_draw (s : State) : (finishedCheck s).draw = s.draw := (finishedCheck_frame s).2.2.2.2.2.2.2.2.2.2.2

/-! ### The meanings -/

/-- The pixel and the count an opcode makes, and the cache after it (R109); a header item makes none. -/
def opcodeResult (i : Instr) (s : State) : Option (Pixel × Cache × Nat) :=
  match i with
  | .rgb r g b => some (rgbPixel s.px r g b, cachePut s.cache (rgbPixel s.px r g b), 1)
  | .rgba r g b a => some (rgbaPixel r g b a, cachePut s.cache (rgbaPixel r g b a), 1)
  | .index k => some (cacheRead s.cache k, cachePut s.cache (cacheRead s.cache k), 1)
  | .diff dr dg db => some (diffPixel s.px dr dg db, cachePut s.cache (diffPixel s.px dr dg db), 1)
  | .luma dg x y => some (lumaPixel s.px dg x y, cachePut s.cache (lumaPixel s.px dg x y), 1)
  | .run n => some (s.px, s.cache, min (runLength n) (owed s))
  | .hdrMagic _ _ => none
  | .hdrWidth _ => none
  | .hdrHeight _ => none
  | .hdrChannels _ => none
  | .hdrColorspace _ => none

/-- Every opcode ends in `emit` of its pixel and count (R137). -/
theorem exec_opcode {i : Instr} {s : State} {p : Pixel} {m : Cache} {k : Nat} (h : opcodeResult i s = some (p, m, k)) :
    exec i s = .next (emit k { s with px := p, cache := m }) := by
  cases i <;> simp only [opcodeResult, Option.some.injEq, Prod.mk.injEq, reduceCtorEq] at h <;>
    obtain ⟨rfl, rfl, rfl⟩ := h <;> rfl

theorem opcodeResult_isSome {i : Instr} (s : State) (h : i.item = .opcode) : ∃ p m k, opcodeResult i s = some (p, m, k) := by
  cases i <;> first | exact ⟨_, _, _, rfl⟩ | cases h

theorem exec_hdrMagic_ok (c : Fin 4) (s : State) : exec (.hdrMagic c (magicByte c)) s =
    .next (returnEvent (.needMore (magicHint c)) { s with phase := .parsingHeader, hdrCnt := ⟨c.val + 1, by omega⟩ }) := by
  simp [exec, execHdrMagic]

theorem exec_hdrMagic_bad {c : Fin 4} {b : Byte} (s : State) (h : b ≠ magicByte c) :
    exec (.hdrMagic c b) s = .next (raise (.badMagic c.val b) s) := by
  simp [exec, execHdrMagic, h]

theorem exec_hdrChannels_ok {b : Byte} (s : State) (h : b = 3 ∨ b = 4) :
    exec (.hdrChannels b) s = .next (returnEvent .imageChannelParsed { s with hdrCnt := 13 }) := by
  simp only [exec, execHdrChannels, if_pos h]

theorem exec_hdrChannels_bad {b : Byte} (s : State) (h : ¬ (b = 3 ∨ b = 4)) :
    exec (.hdrChannels b) s = .next (raise (.badChannels b) s) := by
  simp only [exec, execHdrChannels, if_neg h]

theorem exec_hdrColorspace_ok {b : Byte} (s : State) (h : b = 0 ∨ b = 1) :
    exec (.hdrColorspace b) s = .next (returnEvent .imageColorspaceParsed { toIdle s with phase := .parsingOp }) := by
  simp only [exec, execHdrColorspace, if_pos h]

theorem exec_hdrColorspace_bad {b : Byte} (s : State) (h : ¬ (b = 0 ∨ b = 1)) :
    exec (.hdrColorspace b) s = .next (raise (.badColorspace b) s) := by
  simp only [exec, execHdrColorspace, if_neg h]

/-- Every instruction runs in every state (R110): `exec` always answers a next state. -/
theorem exec_next (i : Instr) (s : State) : ∃ t, exec i s = .next t := by
  cases i <;> simp only [exec, execRgb, execRgba, execIndex, execDiff, execLuma, execRun, execHdrMagic, execHdrWidth,
    execHdrHeight, execHdrChannels, execHdrColorspace] <;> (try split) <;> exact ⟨_, rfl⟩

/-- Raising leaves what `Raised` says. -/
theorem raise_raised (e : Err) (s : State) : Raised s (raise e s) e := ⟨rfl, rfl, ⟨rfl, rfl⟩, ⟨rfl, rfl⟩⟩

end Sys2Proof.Machine
end

