-- ==== Sys2Proof/Laws/Step.lean ====
section
/-! SUPPORT. What one step can do, said once: an equation per operation of the host, an equation per kind of byte, and the inversion of a
step. -/

namespace Sys2Proof.Machine

@[simp] theorem mapNext_next (f : State → State) (t : State) : mapNext f (.next t) = .next (f t) := rfl

/-! ### The operations of the host -/

theorem step_idle {s : State} (h : s.host = []) : step s = .next { s with result := none } := by
  simp [step, hostStep, h]

theorem step_reset {s : State} {ops : List HostOp} (h : s.host = .reset :: ops) :
    step s = .next (resetDecoder { s with host := ops }) := by
  simp [step, hostStep, h, runOp, resetDecoder]

theorem step_powerOn {s : State} {ops : List HostOp} (h : s.host = .powerOn :: ops) :
    step s = .next (powerOn { s with host := ops }) := by
  simp [step, hostStep, h, runOp, powerOn, resetDecoder]

theorem step_next {s : State} {ops : List HostOp} (h : s.host = .next :: ops) :
    step s = .next (nextPixel { s with result := none, host := ops }) := by
  simp [step, hostStep, h, runOp]

theorem step_held {s : State} {ops : List HostOp} (h : s.host = .feed :: ops) (hi : s.itCount ≠ 0) :
    step s = .next { s with result := none, host := ops } := by
  simp only [step, hostStep, h, runOp, feedOp, if_neg hi]

theorem step_noByte {s : State} {ops : List HostOp} (h : s.host = .feed :: ops) (hs : s.stream = []) :
    step s = .next { s with result := none, host := ops } := by
  simp [step, hostStep, h, runOp, feedOp, hs]

theorem step_feeds {s : State} {b : Byte} {bs : List Byte} {ops : List HostOp} (h : s.feeds b bs ops) :
    step s = feed b (s.taken bs ops) := by
  obtain ⟨h1, h2, h3⟩ := h
  simp [step, hostStep, h1, runOp, feedOp, h2, h3, State.taken]

/-- The phases in which a byte is taken. -/
def State.takes (s : State) : Prop := s.phase = .notStarted ∨ s.phase = .parsingHeader ∨ s.phase = .parsingOp

theorem feed_takes {s : State} (h : s.takes) (b : Byte) : feed b s = takeByte b s := by
  rcases h with h | h | h <;> simp [feed, h]

theorem feed_finished {s : State} (h : s.phase = .finished) (b : Byte) : feed b s = .next (returnEvent .finished s) := by
  simp [feed, h]

theorem feed_aborted {s : State} (h : s.phase = .aborted) (b : Byte) : feed b s = .refused .feedWhileAborted := by
  simp [feed, h]

theorem takes_or (s : State) : s.takes ∨ s.phase = .finished ∨ s.phase = .aborted := by
  unfold State.takes; cases s.phase <;> simp

/-! ### One byte -/

theorem takeByte_done {s : State} {b : Byte} {i : Instr} (h : decode (nextItem s) (inFlight s ++ [b]) = .done i) :
    takeByte b s = mapNext finishedCheck (exec i s) := by
  simp [takeByte, h]

theorem takeByte_needMore {s : State} {b : Byte} {n : Nat} (h : decode (nextItem s) (inFlight s ++ [b]) = .needMore n) :
    takeByte b s = .next (finishedCheck (gather b n s)) := by
  simp [takeByte, h]

theorem takeByte_reject {s : State} {b : Byte} {why : Reject} (h : decode (nextItem s) (inFlight s ++ [b]) = .reject why) :
    takeByte b s = .next (raise (rejectErr why s) s) := by
  simp [takeByte, h]

/-- In the header the item is told by the header position. -/
theorem nextItem_header {s : State} (h : s.inHeader) : nextItem s = headerItem (headerPos s) := by
  rcases h with h | h <;> simp [nextItem, h]

theorem nextItem_op {s : State} (h : s.phase = .parsingOp) : nextItem s = .opcode := by simp [nextItem, h]

theorem headerPos_notStarted {s : State} (h : s.phase = .notStarted) : headerPos s = 0 := by simp [headerPos, h]

theorem headerPos_header {s : State} (h : s.phase = .parsingHeader) : headerPos s = s.hdrCnt.val := by simp [headerPos, h]

theorem headerPos_lt (s : State) : headerPos s < 14 := by
  unfold headerPos; split <;> omega

theorem inHeader_takes {s : State} (h : s.inHeader) : s.takes := by
  rcases h with h | h <;> simp [State.takes, h]

/-- Before byte 13 the header progress goes up by one (R25). -/
theorem hdrNext_val {c : Fin 14} (h : c.val < 13) : (hdrNext c).val = c.val + 1 := by
  simp only [hdrNext]; split
  · rfl
  · omega

/-- A magic byte runs HDR_MAGIC at its position (R121, R122). -/
theorem takeByte_magic {s : State} (h : s.inHeader) (c : Fin 4) (hc : headerPos s = c.val) (b : Byte) :
    takeByte b s = mapNext finishedCheck (exec (.hdrMagic c b) s) := by
  have hn : nextItem s = .magic := by rw [nextItem_header h, hc]; simp [headerItem]
  apply takeByte_done
  simp only [hn, inFlight, hc, decode]
  exact decodeMagic_take c b

/-- The first three width bytes are gathered (R123). -/
theorem takeByte_width {s : State} (h : s.phase = .parsingHeader) {i : Nat} (hi : i < 3) (hc : s.hdrCnt.val = 4 + i) (b : Byte) :
    takeByte b s = .next (returnEvent (.needMore (3 - i)) (gatherHeader b i s)) := by
  have hp : headerPos s = 4 + i := by rw [headerPos_header h, hc]
  have hn : nextItem s = .width := by
    rw [nextItem_header (.inr h), hp, headerItem, if_neg (by omega), if_pos (by omega)]
  have hf : inFlight s = s.scratch.toList.take i := by simp [inFlight, hn, hp]
  have hl : (inFlight s ++ [b]).length = i + 1 := by simp [hf]; omega
  rw [takeByte_needMore (n := 3 - i)]
  · rw [finishedCheck_other]
    · simp [gather, hn, hp]
    · simp [gather, hn, h]
  · rw [hn]; simp only [decode]
    rw [decodeWord_short _ _ (by omega), hl]; congr 1; omega

/-- The first three height bytes are gathered (R125). -/
theorem takeByte_height {s : State} (h : s.phase = .parsingHeader) {i : Nat} (hi : i < 3) (hc : s.hdrCnt.val = 8 + i) (b : Byte) :
    takeByte b s = .next (returnEvent (.needMore (3 - i)) (gatherHeader b i s)) := by
  have hp : headerPos s = 8 + i := by rw [headerPos_header h, hc]
  have hn : nextItem s = .height := by
    rw [nextItem_header (.inr h), hp, headerItem, if_neg (by omega), if_neg (by omega), if_pos (by omega)]
  have hf : inFlight s = s.scratch.toList.take i := by simp [inFlight, hn, hp]
  have hl : (inFlight s ++ [b]).length = i + 1 := by simp [hf]; omega
  rw [takeByte_needMore (n := 3 - i)]
  · rw [finishedCheck_other]
    · simp [gather, hn, hp]
    · simp [gather, hn, h]
  · rw [hn]; simp only [decode]
    rw [decodeWord_short _ _ (by omega), hl]; congr 1; omega

/-- The fourth width byte runs HDR_WIDTH on the big-endian value (R124). -/
theorem takeByte_width_last {s : State} (h : s.phase = .parsingHeader) (hc : s.hdrCnt.val = 7) (b : Byte) :
    takeByte b s = exec (.hdrWidth (be32 s.scratch[0] s.scratch[1] s.scratch[2] b)) s := by
  have hp : headerPos s = 7 := by rw [headerPos_header h, hc]
  have hn : nextItem s = .width := by rw [nextItem_header (.inr h), hp]; simp [headerItem]
  rw [takeByte_done (i := .hdrWidth (be32 s.scratch[0] s.scratch[1] s.scratch[2] b))]
  · simp [exec, execHdrWidth]; apply finishedCheck_other; simp [h]
  · simp [hn, inFlight, hp, scratch_toList, decode, decodeWord]

/-- The fourth height byte runs HDR_HEIGHT on the big-endian value (R126). -/
theorem takeByte_height_last {s : State} (h : s.phase = .parsingHeader) (hc : s.hdrCnt.val = 11) (b : Byte) :
    takeByte b s = exec (.hdrHeight (be32 s.scratch[0] s.scratch[1] s.scratch[2] b)) s := by
  have hp : headerPos s = 11 := by rw [headerPos_header h, hc]
  have hn : nextItem s = .height := by rw [nextItem_header (.inr h), hp]; simp [headerItem]
  rw [takeByte_done (i := .hdrHeight (be32 s.scratch[0] s.scratch[1] s.scratch[2] b))]
  · simp [exec, execHdrHeight]; apply finishedCheck_other; simp [h]
  · simp [hn, inFlight, hp, scratch_toList, decode, decodeWord]

/-- The byte at 12 runs HDR_CHANNELS (R127). -/
theorem takeByte_channels {s : State} (h : s.phase = .parsingHeader) (hc : s.hdrCnt.val = 12) (b : Byte) :
    takeByte b s = mapNext finishedCheck (exec (.hdrChannels b) s) := by
  have hp : headerPos s = 12 := by rw [headerPos_header h, hc]
  have hn : nextItem s = .channels := by rw [nextItem_header (.inr h), hp]; simp [headerItem]
  apply takeByte_done
  simp [hn, inFlight, decode, decodeByte]

/-- The byte at 13 runs HDR_COLORSPACE (R129). -/
theorem takeByte_colorspace {s : State} (h : s.phase = .parsingHeader) (hc : s.hdrCnt.val = 13) (b : Byte) :
    takeByte b s = mapNext finishedCheck (exec (.hdrColorspace b) s) := by
  have hp : headerPos s = 13 := by rw [headerPos_header h, hc]
  have hn : nextItem s = .colorspace := by rw [nextItem_header (.inr h), hp]; simp [headerItem]
  apply takeByte_done
  simp [hn, inFlight, decode, decodeByte]

theorem inFlight_idle {s : State} (h : s.phase = .parsingOp) (hb : s.opBusy = false) : inFlight s = [] := by
  simp [inFlight, nextItem_op h, hb]

theorem inFlight_busy {s : State} (h : s.phase = .parsingOp) (hb : s.opBusy = true) :
    inFlight s = s.opTag :: s.scratch.toList.take s.opNread.toNat := by
  simp [inFlight, nextItem_op h, hb]

/-- Idle: a tag with operand bytes to come is kept (R132, R133, R134). -/
theorem takeByte_tag {s : State} (h : s.phase = .parsingOp) (hb : s.opBusy = false) {b : Byte} (hl : 0 < oplen (classify b)) :
    takeByte b s = .next (finishedCheck (returnEvent (.needMore (oplen (classify b))) (gatherTag b s))) := by
  rw [takeByte_needMore (n := oplen (classify b))]
  · simp [gather, nextItem_op h, hb]
  · simp only [nextItem_op h, inFlight_idle h hb, List.nil_append, decode]
    rw [decodeOpcode_short _ _ (by simpa using hl)]; simp

/-- Idle: a one-byte opcode is complete with its tag (R131). -/
theorem takeByte_whole {s : State} (h : s.phase = .parsingOp) (hb : s.opBusy = false) {b : Byte} {i : Instr}
    (hd : decodeOpcode [b] = .done i) : takeByte b s = mapNext finishedCheck (exec i s) := by
  apply takeByte_done
  simpa [nextItem_op h, inFlight_idle h hb, decode] using hd

/-- InProgress: an operand byte that is not the last is stored (R135). -/
theorem takeByte_operand {s : State} (h : s.phase = .parsingOp) (hb : s.opBusy = true) (b : Byte)
    (hl : s.opNread.toNat + 1 < oplen (classify s.opTag)) :
    takeByte b s = .next (finishedCheck
      (returnEvent (.needMore (oplen (classify s.opTag) - 1 - s.opNread.toNat)) (gatherOperand b s))) := by
  have h4 : oplen (classify s.opTag) ≤ 4 := by cases classify s.opTag <;> simp [oplen]
  have hlen : (s.scratch.toList.take s.opNread.toNat ++ [b]).length = s.opNread.toNat + 1 := by simp; omega
  rw [takeByte_needMore (n := oplen (classify s.opTag) - 1 - s.opNread.toNat)]
  · simp [gather, nextItem_op h, hb]
  · simp only [nextItem_op h, inFlight_busy h hb, List.cons_append, decode]
    rw [decodeOpcode_short _ _ (by omega), hlen]; congr 1; omega

/-- InProgress: the last operand byte runs the opcode (R135). -/
theorem takeByte_last {s : State} (h : s.phase = .parsingOp) (hb : s.opBusy = true) {b : Byte} {i : Instr}
    (hd : decodeOpcode (s.opTag :: (s.scratch.toList.take s.opNread.toNat ++ [b])) = .done i) :
    takeByte b s = mapNext finishedCheck (exec i s) := by
  apply takeByte_done
  simpa [nextItem_op h, inFlight_busy h hb, decode] using hd

/-- InProgress with more operand bytes counted than the opcode has: an error (R136). -/
theorem takeByte_illegal {s : State} (h : s.phase = .parsingOp) (hb : s.opBusy = true) (b : Byte)
    (hl : oplen (classify s.opTag) ≤ s.opNread.toNat) :
    takeByte b s = .next (raise
      (if oplen (classify s.opTag) = 0 then .unknownTag s.opTag else .byteCountOverrun s.opNread) s) := by
  have h4 : oplen (classify s.opTag) ≤ 4 := by cases classify s.opTag <;> simp [oplen]
  have hlen : oplen (classify s.opTag) < (s.scratch.toList.take s.opNread.toNat ++ [b]).length := by simp; omega
  rw [takeByte_reject (why := if oplen (classify s.opTag) = 0 then .unknownTag s.opTag else .byteCountOverrun)]
  · split_ifs <;> rfl
  · simp only [nextItem_op h, inFlight_busy h hb, List.cons_append, decode]
    exact decodeOpcode_long _ _ hlen

end Sys2Proof.Machine
end

