-- ==== Sys2Proof/Laws/Inversion.lean ====
section
/-! SUPPORT. The inversion of a byte and of a step: everything they can do, guards included. Invariants are proved by cases on these. -/

namespace Sys2Proof.Machine

/-- Everything the taking of one byte can do (R121 to R141). -/
inductive ByteEffect (b : Byte) (s : State) : State → Prop
  | magicOk (c : Fin 4) (hh : s.inHeader) (hc : headerPos s = c.val) (hb : b = magicByte c) :
      ByteEffect b s (returnEvent (.needMore (magicHint c)) { s with phase := .parsingHeader, hdrCnt := ⟨c.val + 1, by omega⟩ })
  | magicBad (c : Fin 4) (hh : s.inHeader) (hc : headerPos s = c.val) (hb : b ≠ magicByte c) :
      ByteEffect b s (raise (.badMagic c.val b) s)
  | gathered (i : Nat) (hi : i < 3) (hp : s.phase = .parsingHeader) (hc : s.hdrCnt.val = 4 + i ∨ s.hdrCnt.val = 8 + i) :
      ByteEffect b s (returnEvent (.needMore (3 - i)) (gatherHeader b i s))
  | width (w : BitVec 32) (hp : s.phase = .parsingHeader) (hc : s.hdrCnt.val = 7)
      (hw : w = be32 s.scratch[0] s.scratch[1] s.scratch[2] b) :
      ByteEffect b s (returnEvent (.imageWidthParsed w)
        { s with scratch := scratchSet s.scratch 3 (be32Byte w 3), pxTarget := w.setWidth 64, hdrCnt := 8 })
  | height (h : BitVec 32) (hp : s.phase = .parsingHeader) (hc : s.hdrCnt.val = 11)
      (hw : h = be32 s.scratch[0] s.scratch[1] s.scratch[2] b) :
      ByteEffect b s (returnEvent (.imageHeightParsed h)
        { s with scratch := scratchSet s.scratch 3 (be32Byte h 3), pxTarget := s.pxTarget * h.setWidth 64, hdrCnt := 12 })
  | channelsOk (hp : s.phase = .parsingHeader) (hc : s.hdrCnt.val = 12) (hb : b = 3 ∨ b = 4) :
      ByteEffect b s (returnEvent .imageChannelParsed { s with hdrCnt := 13 })
  | channelsBad (hp : s.phase = .parsingHeader) (hc : s.hdrCnt.val = 12) (hb : ¬ (b = 3 ∨ b = 4)) :
      ByteEffect b s (raise (.badChannels b) s)
  | colorspaceOk (hp : s.phase = .parsingHeader) (hc : s.hdrCnt.val = 13) (hb : b = 0 ∨ b = 1) :
      ByteEffect b s (finishedCheck (returnEvent .imageColorspaceParsed { toIdle s with phase := .parsingOp }))
  | colorspaceBad (hp : s.phase = .parsingHeader) (hc : s.hdrCnt.val = 13) (hb : ¬ (b = 0 ∨ b = 1)) :
      ByteEffect b s (raise (.badColorspace b) s)
  | tag (hp : s.phase = .parsingOp) (hb : s.opBusy = false) (hl : 0 < oplen (classify b)) :
      ByteEffect b s (finishedCheck (returnEvent (.needMore (oplen (classify b))) (gatherTag b s)))
  | operand (hp : s.phase = .parsingOp) (hb : s.opBusy = true) (hl : s.opNread.toNat + 1 < oplen (classify s.opTag)) :
      ByteEffect b s (finishedCheck
        (returnEvent (.needMore (oplen (classify s.opTag) - 1 - s.opNread.toNat)) (gatherOperand b s)))
  | complete (i : Instr) (p : Pixel) (m : Cache) (k : Nat) (hp : s.phase = .parsingOp)
      (hd : decodeOpcode (inFlight s ++ [b]) = .done i) (hr : opcodeResult i s = some (p, m, k)) :
      ByteEffect b s (finishedCheck (emit k { s with px := p, cache := m }))
  | illegal (hp : s.phase = .parsingOp) (hb : s.opBusy = true) (hl : oplen (classify s.opTag) ≤ s.opNread.toNat) :
      ByteEffect b s (raise (if oplen (classify s.opTag) = 0 then .unknownTag s.opTag else .byteCountOverrun s.opNread) s)

/-- An opcode that decodes completes with its result and the Finished check. -/
theorem takeByte_complete {s : State} {b : Byte} {i : Instr} (h : s.phase = .parsingOp)
    (hd : decodeOpcode (inFlight s ++ [b]) = .done i) {p : Pixel} {m : Cache} {k : Nat} (hr : opcodeResult i s = some (p, m, k)) :
    takeByte b s = .next (finishedCheck (emit k { s with px := p, cache := m })) := by
  rw [takeByte_done (i := i) (by simpa [nextItem_op h, decode] using hd), exec_opcode hr]; rfl

theorem decodeOpcode_item {bs : List Byte} {i : Instr} (h : decodeOpcode bs = .done i) : i.item = .opcode := by
  rcases decodeOpcode_done h with ⟨_, _, _, _, -, -, rfl⟩ | ⟨_, _, _, _, _, -, -, rfl⟩ | ⟨_, -, -, rfl⟩ |
    ⟨_, -, -, rfl⟩ | ⟨_, _, -, -, rfl⟩ | ⟨_, -, -, rfl⟩ <;> rfl

/-- As many operand bytes as the tag's opcode has are a whole opcode. -/
theorem decodeOpcode_whole (t : Byte) (ops : List Byte) (h : ops.length = oplen (classify t)) :
    ∃ i, decodeOpcode (t :: ops) = .done i := by
  cases hc : classify t <;> rw [hc] at h
  · match ops, h with
    | [r, g, b], _ => exact ⟨_, decodeOpcode_rgb hc r g b⟩
  · match ops, h with
    | [r, g, b, a], _ => exact ⟨_, decodeOpcode_rgba hc r g b a⟩
  · match ops, h with
    | [], _ => exact ⟨_, decodeOpcode_index hc⟩
  · match ops, h with
    | [], _ => exact ⟨_, decodeOpcode_diff hc⟩
  · match ops, h with
    | [n], _ => exact ⟨_, decodeOpcode_luma hc n⟩
  · match ops, h with
    | [], _ => exact ⟨_, decodeOpcode_run hc⟩

/-- A byte that the machine takes always gives a next state, and one of the effects above. -/
theorem takeByte_effect {s : State} (h : s.takes) (b : Byte) : ∃ t, takeByte b s = .next t ∧ ByteEffect b s t := by
  have hdr : s.inHeader → headerPos s < 4 → ∃ t, takeByte b s = .next t ∧ ByteEffect b s t := by
    intro hh hlt
    have e := takeByte_magic hh ⟨headerPos s, hlt⟩ rfl b
    by_cases hm : b = magicByte ⟨headerPos s, hlt⟩
    · refine ⟨_, ?_, .magicOk ⟨headerPos s, hlt⟩ hh rfl hm⟩
      rw [e, hm, exec_hdrMagic_ok, mapNext_next, finishedCheck_other (by simp)]
    · refine ⟨_, ?_, .magicBad ⟨headerPos s, hlt⟩ hh rfl hm⟩
      rw [e, exec_hdrMagic_bad _ hm, mapNext_next, finishedCheck_other (by simp)]
  rcases h with h | h | h
  · exact hdr (.inl h) (by rw [headerPos_notStarted h]; omega)
  · by_cases h4 : s.hdrCnt.val < 4
    · exact hdr (.inr h) (by rw [headerPos_header h]; exact h4)
    by_cases h7 : s.hdrCnt.val < 7
    · exact ⟨_, takeByte_width h (i := s.hdrCnt.val - 4) (by omega) (by omega) b,
        .gathered _ (by omega) h (.inl (by omega))⟩
    by_cases h8 : s.hdrCnt.val = 7
    · exact ⟨_, takeByte_width_last h h8 b, .width _ h h8 rfl⟩
    by_cases h11 : s.hdrCnt.val < 11
    · exact ⟨_, takeByte_height h (i := s.hdrCnt.val - 8) (by omega) (by omega) b,
        .gathered _ (by omega) h (.inr (by omega))⟩
    by_cases h12 : s.hdrCnt.val = 11
    · exact ⟨_, takeByte_height_last h h12 b, .height _ h h12 rfl⟩
    by_cases h13 : s.hdrCnt.val = 12
    · have e := takeByte_channels h h13 b
      by_cases hb : b = 3 ∨ b = 4
      · refine ⟨_, ?_, .channelsOk h h13 hb⟩
        rw [e, exec_hdrChannels_ok s hb, mapNext_next, finishedCheck_other (by simp [h])]
      · refine ⟨_, ?_, .channelsBad h h13 hb⟩
        rw [e, exec_hdrChannels_bad s hb, mapNext_next, finishedCheck_other (by simp)]
    · have h14 : s.hdrCnt.val = 13 := by have := s.hdrCnt.isLt; omega
      have e := takeByte_colorspace h h14 b
      by_cases hb : b = 0 ∨ b = 1
      · exact ⟨_, by rw [e, exec_hdrColorspace_ok s hb, mapNext_next], .colorspaceOk h h14 hb⟩
      · refine ⟨_, ?_, .colorspaceBad h h14 hb⟩
        rw [e, exec_hdrColorspace_bad s hb, mapNext_next, finishedCheck_other (by simp)]
  · have done : ∀ i, decodeOpcode (inFlight s ++ [b]) = .done i → ∃ t, takeByte b s = .next t ∧ ByteEffect b s t := by
      intro i hd
      obtain ⟨p, m, k, hr⟩ := opcodeResult_isSome s (decodeOpcode_item hd)
      exact ⟨_, takeByte_complete h hd hr, .complete i p m k h hd hr⟩
    cases hb : s.opBusy with
    | false =>
      by_cases hl : 0 < oplen (classify b)
      · exact ⟨_, takeByte_tag h hb hl, .tag h hb hl⟩
      · obtain ⟨i, hd⟩ := decodeOpcode_whole b [] (by simp; omega)
        exact done i (by rw [inFlight_idle h hb]; exact hd)
    | true =>
      by_cases hl : s.opNread.toNat + 1 < oplen (classify s.opTag)
      · exact ⟨_, takeByte_operand h hb b hl, .operand h hb hl⟩
      by_cases hl' : oplen (classify s.opTag) ≤ s.opNread.toNat
      · exact ⟨_, takeByte_illegal h hb b hl', .illegal h hb hl'⟩
      · have h4 : oplen (classify s.opTag) ≤ 4 := by cases classify s.opTag <;> simp [oplen]
        obtain ⟨i, hd⟩ := decodeOpcode_whole s.opTag (s.scratch.toList.take s.opNread.toNat ++ [b]) (by simp; omega)
        exact done i (by rw [inFlight_busy h hb]; exact hd)

/-- The converse: an effect whose guards hold is what the byte does. -/
theorem takeByte_of_effect {s t : State} {b : Byte} (h : ByteEffect b s t) : takeByte b s = .next t := by
  cases h with
  | magicOk c hh hc hb =>
    rw [takeByte_magic hh c hc, hb, exec_hdrMagic_ok, mapNext_next, finishedCheck_other (by simp)]
  | magicBad c hh hc hb =>
    rw [takeByte_magic hh c hc, exec_hdrMagic_bad _ hb, mapNext_next, finishedCheck_other (by simp)]
  | gathered i hi hp hc =>
    rcases hc with hc | hc
    · exact takeByte_width hp hi hc b
    · exact takeByte_height hp hi hc b
  | width w hp hc hw => rw [hw]; exact takeByte_width_last hp hc b
  | height w hp hc hw => rw [hw]; exact takeByte_height_last hp hc b
  | channelsOk hp hc hb =>
    rw [takeByte_channels hp hc, exec_hdrChannels_ok s hb, mapNext_next, finishedCheck_other (by simp [hp])]
  | channelsBad hp hc hb =>
    rw [takeByte_channels hp hc, exec_hdrChannels_bad s hb, mapNext_next, finishedCheck_other (by simp)]
  | colorspaceOk hp hc hb => rw [takeByte_colorspace hp hc, exec_hdrColorspace_ok s hb, mapNext_next]
  | colorspaceBad hp hc hb =>
    rw [takeByte_colorspace hp hc, exec_hdrColorspace_bad s hb, mapNext_next, finishedCheck_other (by simp)]
  | tag hp hb hl => exact takeByte_tag hp hb hl
  | operand hp hb hl => exact takeByte_operand hp hb b hl
  | complete i p m k hp hd hr => exact takeByte_complete hp hd hr
  | illegal hp hb hl => exact takeByte_illegal hp hb b hl

/-- A `FEED` that is not held, in a phase that takes bytes, does what the effect says. -/
theorem step_of_effect {s t : State} {b : Byte} {bs : List Byte} {ops : List HostOp} (hf : s.feeds b bs ops) (ht : s.takes)
    (h : ByteEffect b (s.taken bs ops) t) : step s = .next t := by
  rw [step_feeds hf, feed_takes (s := s.taken bs ops) ht]
  exact takeByte_of_effect h

/-- Everything a step can do. -/
inductive StepEffect (s : State) : State → Prop
  | idle (hh : s.host = []) : StepEffect s { s with result := none }
  | reset (ops : List HostOp) (hh : s.host = .reset :: ops) : StepEffect s (resetDecoder { s with host := ops })
  | powerOn (ops : List HostOp) (hh : s.host = .powerOn :: ops) : StepEffect s (Machine.powerOn { s with host := ops })
  | empty (ops : List HostOp) (hh : s.host = .next :: ops) (hi : s.itCount = 0) :
      StepEffect s { s with result := some (.yielded none), host := ops }
  | yielded (ops : List HostOp) (hh : s.host = .next :: ops) (hi : s.itCount ≠ 0) :
      StepEffect s { s with itCount := s.itCount - 1, result := some (.yielded (some s.itPx)), host := ops }
  | held (ops : List HostOp) (hh : s.host = .feed :: ops) (hi : s.itCount ≠ 0) :
      StepEffect s { s with result := none, host := ops }
  | noByte (ops : List HostOp) (hh : s.host = .feed :: ops) (hs : s.stream = []) :
      StepEffect s { s with result := none, host := ops }
  | finished (b : Byte) (bs : List Byte) (ops : List HostOp) (hf : s.feeds b bs ops) (hp : s.phase = .finished) :
      StepEffect s (returnEvent .finished (s.taken bs ops))
  | byte (b : Byte) (bs : List Byte) (ops : List HostOp) (t : State) (hf : s.feeds b bs ops) (ht : s.takes)
      (he : ByteEffect b (s.taken bs ops) t) : StepEffect s t

/-- A step that gives a next state has one of the effects above; a step that gives none is a `FEED` in Aborted (R144). -/
theorem step_effect (s : State) : (∃ t, step s = .next t ∧ StepEffect s t) ∨
    (∃ b bs ops, s.feeds b bs ops ∧ s.phase = .aborted ∧ step s = .refused .feedWhileAborted) := by
  cases hh : s.host with
  | nil => exact .inl ⟨_, step_idle hh, .idle hh⟩
  | cons op ops =>
    cases op with
    | reset => exact .inl ⟨_, step_reset hh, .reset ops hh⟩
    | powerOn => exact .inl ⟨_, step_powerOn hh, .powerOn ops hh⟩
    | next =>
      left
      by_cases hi : s.itCount = 0
      · refine ⟨_, ?_, .empty ops hh hi⟩
        rw [step_next hh, nextPixel, if_pos (by exact hi)]
      · refine ⟨_, ?_, .yielded ops hh hi⟩
        rw [step_next hh, nextPixel, if_neg (by exact hi)]
    | feed =>
      by_cases hi : s.itCount = 0
      · cases hs : s.stream with
        | nil => exact .inl ⟨_, step_noByte hh hs, .noByte ops hh hs⟩
        | cons b bs =>
          have hf : s.feeds b bs ops := ⟨hh, hs, hi⟩
          rcases takes_or s with ht | hp | hp
          · obtain ⟨t, h1, h2⟩ := takeByte_effect (s := s.taken bs ops) ht b
            exact .inl ⟨t, by rw [step_feeds hf, feed_takes (s := s.taken bs ops) ht, h1], .byte b bs ops t hf ht h2⟩
          · exact .inl ⟨_, by rw [step_feeds hf, feed_finished (s := s.taken bs ops) hp], .finished b bs ops hf hp⟩
          · exact .inr ⟨b, bs, ops, hf, hp, by rw [step_feeds hf, feed_aborted (s := s.taken bs ops) hp]⟩
      · exact .inl ⟨_, step_held hh hi, .held ops hh hi⟩

/-- The inversion of a step. -/
theorem step_inv {s t : State} (h : step s = .next t) : StepEffect s t := by
  rcases step_effect s with ⟨u, hu, he⟩ | ⟨b, bs, ops, -, -, hr⟩
  · rw [h] at hu; cases hu; exact he
  · rw [h] at hr; cases hr

/-- The inversion of a byte. -/
theorem takeByte_inv {s t : State} {b : Byte} (ht : s.takes) (h : takeByte b s = .next t) : ByteEffect b s t := by
  obtain ⟨u, hu, he⟩ := takeByte_effect ht b
  rw [h] at hu; cases hu; exact he

/-- The inversion of a `FEED` that is not held, in a phase that takes bytes. -/
theorem feeds_inv {s t : State} {b : Byte} {bs : List Byte} {ops : List HostOp} (hf : s.feeds b bs ops) (ht : s.takes)
    (h : step s = .next t) : ByteEffect b (s.taken bs ops) t := by
  rw [step_feeds hf, feed_takes (s := s.taken bs ops) ht] at h
  exact takeByte_inv (s := s.taken bs ops) ht h

end Sys2Proof.Machine
end

