-- ==== Sys2Proof/Laws/PerInstr.lean ====
section
/-! SUPPORT. Per-instruction statements: the first byte of an opcode's encoding is a tag of its own class and tells the length
(R71, R73); a header item has the length R82 gives it. -/

namespace Sys2Proof.Laws.TagClassifies

/-- The opcode of an opcode row; none for a header item. -/
def opcodeOf : Instr → Option Opcode
  | .rgb _ _ _ => some .rgb
  | .rgba _ _ _ _ => some .rgba
  | .index _ => some .index
  | .diff _ _ _ => some .diff
  | .luma _ _ _ => some .luma
  | .run _ => some .run
  | .hdrMagic _ _ => none
  | .hdrWidth _ => none
  | .hdrHeight _ => none
  | .hdrChannels _ => none
  | .hdrColorspace _ => none

/-- The number of bytes of a header item, up to the byte at hand. -/
def headerLength : Instr → Nat
  | .rgb _ _ _ => 0
  | .rgba _ _ _ _ => 0
  | .index _ => 0
  | .diff _ _ _ => 0
  | .luma _ _ _ => 0
  | .run _ => 0
  | .hdrMagic c _ => c.val + 1
  | .hdrWidth _ => 4
  | .hdrHeight _ => 4
  | .hdrChannels _ => 1
  | .hdrColorspace _ => 1

/-- A well-formed opcode starts with a tag of its class, and the tag tells the length; a header item has its fixed length. -/
def Statement (i : Instr) : Prop :=
  i.wf = true →
    (∀ o, opcodeOf i = some o → ∃ t ops, encode i = t :: ops ∧ classify t = o ∧ ops.length = oplen o) ∧
    (opcodeOf i = none → (encode i).length = headerLength i)

theorem rgb (r g b : Byte) : Statement (.rgb r g b) := fun _ =>
  ⟨fun o h => by cases h; exact ⟨_, _, rfl, by decide, rfl⟩, fun h => (by cases h)⟩

theorem rgba (r g b a : Byte) : Statement (.rgba r g b a) := fun _ =>
  ⟨fun o h => by cases h; exact ⟨_, _, rfl, by decide, rfl⟩, fun h => (by cases h)⟩

theorem index (k : BitVec 6) : Statement (.index k) := fun _ =>
  ⟨fun o h => by cases h; exact ⟨_, _, rfl, by revert k; decide, rfl⟩, fun h => (by cases h)⟩

theorem diff (dr dg db : BitVec 2) : Statement (.diff dr dg db) := fun _ =>
  ⟨fun o h => by cases h; exact ⟨_, _, rfl, by revert dr dg db; decide, rfl⟩, fun h => (by cases h)⟩

/-- The tag of LUMA holds the green delta alone. -/
theorem luma_tag (dg : BitVec 6) : classify (2#2 ++ dg : BitVec 8) = .luma := by revert dg; decide

theorem luma (dg : BitVec 6) (drdg dbdg : BitVec 4) : Statement (.luma dg drdg dbdg) := fun _ =>
  ⟨fun o h => by cases h; exact ⟨_, _, rfl, luma_tag dg, rfl⟩, fun h => (by cases h)⟩

theorem run (n : BitVec 6) : Statement (.run n) := fun hw =>
  ⟨fun o h => by cases h; exact ⟨_, _, rfl, by revert n; decide, rfl⟩, fun h => (by cases h)⟩

theorem hdrMagic (c : Fin 4) (b : Byte) : Statement (.hdrMagic c b) := fun _ =>
  ⟨fun o h => (by cases h), fun _ => by fin_cases c <;> rfl⟩

theorem hdrWidth (w : BitVec 32) : Statement (.hdrWidth w) := fun _ => ⟨fun o h => (by cases h), fun _ => rfl⟩

theorem hdrHeight (h : BitVec 32) : Statement (.hdrHeight h) := fun _ => ⟨fun o h => (by cases h), fun _ => rfl⟩

theorem hdrChannels (b : Byte) : Statement (.hdrChannels b) := fun _ => ⟨fun o h => (by cases h), fun _ => rfl⟩

theorem hdrColorspace (b : Byte) : Statement (.hdrColorspace b) := fun _ => ⟨fun o h => (by cases h), fun _ => rfl⟩

end Sys2Proof.Laws.TagClassifies
end

