-- ==== Sys2Proof/Laws/Run.lean ====
section
/-! SUPPORT. Shared facts of completions, gathered bytes and runs: what `emit` leaves, how far a completion counts, what a loaded state
holds, how runs are put together. -/

namespace Sys2Proof.Machine

/-! ### Operands and results -/

/-- The magic byte by its place in the list (R51). -/
theorem magicByte_getD (c : Fin 4) : magicByte c = [0x71, 0x6F, 0x69, 0x66].getD c.val 0 := by revert c; decide

/-- A byte is a numeral when its value is. -/
theorem byte_eq_iff (b : Byte) (n : Nat) (hn : n < 256) : b = BitVec.ofNat 8 n ↔ b.toNat = n := by
  rw [← BitVec.toNat_inj]; simp; omega

/-- A biased field added to a channel is one integer sum reduced modulo 256 (R107). -/
theorem addend_int {w : Nat} (hw : w ≤ 8) (ch : Byte) (s : BitVec w) (bias : Byte) :
    ((ch + addend s bias).toNat : Int) = ((ch.toNat : Int) + ((s.toNat : Int) - bias.toNat)) % 256 := by
  have h1 := ch.isLt; have h2 := bias.isLt; have h3 := s.isLt
  have h4 : 2 ^ w ≤ 2 ^ 8 := Nat.pow_le_pow_right (by omega) hw
  simp only [addend, BitVec.toNat_add, BitVec.toNat_sub, BitVec.toNat_setWidth]
  omega

/-- What `emit` of a new pixel and cache leaves (R137 to R140, R156). -/
theorem completed_emit {s : State} {p : Pixel} {m : Cache} {k : Nat} (hk : k ≤ 255) :
    Completed s (emit k { s with px := p, cache := m }) p k := by
  refine ⟨rfl, ?_, rfl, rfl, ?_, ⟨rfl, rfl, rfl⟩, rfl, rfl, rfl, rfl, rfl, rfl, rfl⟩
  · simp; omega
  · simp [BitVec.toNat_add]

/-- The cache write of R58 in the form claims use. -/
theorem written_put (s t : State) (p : Pixel) (h : t.cache = cachePut s.cache p) : CacheWritten s t p := by
  intro j
  rw [h, cacheRead_cachePut, ← slot_toNat]
  simp only [BitVec.toNat_inj]

/-- Only stored lengths 0..61 decode to RUN (R74, R79). -/
theorem decodeOpcode_run_le {bs : List Byte} {n : BitVec 6} (h : decodeOpcode bs = .done (.run n)) : n.toNat ≤ 61 := by
  rcases decodeOpcode_done h with ⟨_, _, _, _, -, -, h⟩ | ⟨_, _, _, _, _, -, -, h⟩ | ⟨_, -, -, h⟩ |
    ⟨_, -, -, h⟩ | ⟨_, _, -, -, h⟩ | ⟨t, -, hc, h⟩ <;> cases h
  rw [classify_run_iff] at hc
  have := field_toNat t 0 6
  omega

/-- With a pixel owed, an opcode that decodes emits 1 to 62 pixels and not more than are owed (R104, R138, R140). -/
theorem complete_bounds {s : State} {bs : List Byte} {i : Instr} {p : Pixel} {m : Cache} {k : Nat}
    (ho : s.pxCount.toNat < s.pxTarget.toNat) (hd : decodeOpcode bs = .done i) (hr : opcodeResult i s = some (p, m, k)) :
    1 ≤ k ∧ k ≤ 62 ∧ s.pxCount.toNat + k ≤ s.pxTarget.toNat := by
  cases i <;> simp only [opcodeResult, Option.some.injEq, Prod.mk.injEq, reduceCtorEq] at hr <;> obtain ⟨-, -, rfl⟩ := hr
  case run n =>
    have := decodeOpcode_run_le hd
    simp only [owed, runLength]; omega
  all_goals omega

/-- Counting up to the target never wraps (R140). -/
theorem emit_count {s : State} {k : Nat} (h : s.pxCount.toNat + k ≤ s.pxTarget.toNat) :
    (s.pxCount + BitVec.ofNat 64 k).toNat = s.pxCount.toNat + k := by
  have := s.pxTarget.isLt
  simp [BitVec.toNat_add]; omega

/-- Filling the scratch buffer and reading it back (R28). -/
theorem scratchFill_take (m : Scratch) (l : List Byte) (h : l.length ≤ 4) : (scratchFill m 0 l).toList.take l.length = l := by
  match l, h with
  | [], _ => simp
  | [a], _ => simp [scratchFill, scratch_toList, scratchSet_get]
  | [a, b], _ => simp [scratchFill, scratch_toList, scratchSet_get]
  | [a, b, c], _ => simp [scratchFill, scratch_toList, scratchSet_get]
  | [a, b, c, d], _ => simp [scratchFill, scratch_toList, scratchSet_get]
  | _ :: _ :: _ :: _ :: _ :: l, h => exfalso; simp at h; omega

/-- What a loaded state holds: the next byte is the one after `pre` of the item, nothing is held, and the rest is as it was. -/
theorem placed_spec (it : Item) (pre : List Byte) (s : State)
    (h : (it = .magic ∧ pre = magicBytes.take 3) ∨ (it = .width ∧ pre.length = 3) ∨ (it = .opcode ∧ pre.length ≤ 4)) :
    (placed it pre s).takes ∧ nextItem (placed it pre s) = it ∧ inFlight (placed it pre s) = pre ∧ (placed it pre s).itCount = 0 ∧
    (placed it pre s).px = s.px ∧ (placed it pre s).cache = s.cache ∧ (placed it pre s).stream = s.stream ∧ (placed it pre s).host = s.host := by
  rcases h with ⟨rfl, rfl⟩ | ⟨rfl, hl⟩ | ⟨rfl, hl⟩
  · exact ⟨.inr (.inl rfl), rfl, rfl, rfl, rfl, rfl, rfl, rfl⟩
  · refine ⟨.inr (.inl rfl), ?_, ?_, rfl, rfl, rfl, rfl, rfl⟩
    · simp [placed, nextItem, headerPos, hl, headerItem, Fin.ofNat]
    · have := scratchFill_take s.scratch pre (by omega)
      rw [hl] at this
      simp [placed, inFlight, nextItem, headerPos, hl, headerItem, Fin.ofNat, this]
  · unfold placed
    match pre, hl with
    | [], _ => 
      refine ⟨.inr (.inr ?_), ?_, ?_, ?_, ?_, ?_, ?_, ?_⟩ <;> dsimp only <;> split <;> rfl
    | t :: ops, hl =>
      have := scratchFill_take s.scratch ops (by simp at hl; omega)
      have h3 : ops.length % 8 = ops.length := Nat.mod_eq_of_lt (by simp at hl; omega)
      refine ⟨.inr (.inr ?_), ?_, ?_, ?_, ?_, ?_, ?_, ?_⟩ <;> dsimp only <;> split <;> (try rfl) <;>
       · simp [inFlight, nextItem, h3, this]

/-! ### Runs -/

/-- No byte delivers a pixel; `NEXT()` alone does (R159). -/
theorem delivered_of_effect {s t : State} {b : Byte} (h : ByteEffect b s t) : t.delivered = [] := by
  cases h <;> simp [State.delivered]

theorem runOut_succ {s t : State} (n : Nat) (h : step s = .next t) :
    runOut (n + 1) s = (runOut n t).map fun r => (r.1, t.delivered ++ r.2) := by
  simp [runOut, h]

theorem promptRun_succ {s t : State} (n : Nat) (h : step { s with host := [promptOp s] } = .next t) :
    promptRun (n + 1) s = (promptRun n t).map fun r => (r.1, t.delivered ++ r.2) := by
  simp [promptRun, h]

/-- A run of `a + b` steps of the prompt host is one of `a` and one of `b`. -/
theorem promptRun_add (a b : Nat) (s : State) :
    promptRun (a + b) s = (promptRun a s).bind fun r => (promptRun b r.1).map fun q => (q.1, r.2 ++ q.2) := by
  induction a generalizing s with
  | zero => rw [Nat.zero_add]; simp only [promptRun, Option.bind_some]; cases promptRun b s <;> simp
  | succ a ih =>
    rw [Nat.add_right_comm]
    simp only [promptRun]
    rcases step { s with host := [promptOp s] } with t | t | t
    · dsimp only; rw [ih]
      cases promptRun a t with
      | none => rfl
      | some r => simp only [Option.bind_some, Option.map_some]; cases promptRun b r.1 <;> simp
    · rfl
    · rfl

/-- Two runs of the prompt host put together. -/
theorem promptRun_trans {a b : Nat} {s t u : State} {o o' : List Pixel} (h : promptRun a s = some (t, o)) (h' : promptRun b t = some (u, o')) :
    promptRun (a + b) s = some (u, o ++ o') := by
  rw [promptRun_add, h]; simp [h']

/-- A byte taken by the prompt host, by its effect. -/
theorem promptRun_byte {s t : State} {b : Byte} {bs : List Byte} (hs : s.stream = b :: bs) (hi : s.itCount = 0) (ht : s.takes)
    (h : ByteEffect b { s with host := [], stream := bs, result := none } t) : promptRun 1 s = some (t, []) := by
  have hpo : promptOp s = .feed := by simp [promptOp, hi]
  have hf : State.feeds { s with host := [promptOp s] } b bs [] := ⟨by rw [hpo], hs, hi⟩
  have hst : step { s with host := [promptOp s] } = .next t := step_of_effect hf ht h
  simp [promptRun, hst, delivered_of_effect h]

end Sys2Proof.Machine
end

