-- ==== Sys2Proof/Laws/Reference.lean ====
section
/-! SUPPORT. The reference loop, position by position and opcode by opcode, in step with what the machine makes of the same opcode. -/

namespace Sys2Proof.Machine

/-- Pixels put in front of a successful result of the reference loop. -/
def pre (ps : List Pixel) : Except Err (List Pixel × List Byte) → Except Err (List Pixel × List Byte)
  | .ok (o, r) => .ok (ps ++ o, r)
  | .error e => .error e

/-- Prepending twice. -/
theorem pre_pre (a b : List Pixel) (x) : pre a (pre b x) = pre (a ++ b) x := by
  rcases x with e | ⟨o, r⟩ <;> simp [pre]

/-- Prepending nothing. -/
theorem pre_nil (x) : pre [] x = x := by rcases x with e | ⟨o, r⟩ <;> simp [pre]

/-- A position inside a run (R162). -/
theorem refLoop_run_succ (n : Nat) (p : Pixel) (m : Cache) (k : Nat) (s : List Byte) :
    refLoop (n + 1) ⟨p, m, k + 1⟩ s = pre [p] (refLoop n ⟨p, m, k⟩ s) := by
  simp only [refLoop]
  rcases refLoop n ⟨p, m, k⟩ s with e | ⟨o, r⟩ <;> rfl

/-- All the positions of a run at once (R162). -/
theorem refLoop_run (n : Nat) (p : Pixel) (m : Cache) (k : Nat) (s : List Byte) :
    refLoop n ⟨p, m, k⟩ s = pre (List.replicate (min k n) p) (refLoop (n - min k n) ⟨p, m, 0⟩ s) := by
  induction n generalizing k with
  | zero => simp [refLoop, pre]
  | succ n ih =>
    cases k with
    | zero => simp [pre_nil]
    | succ k =>
      rw [refLoop_run_succ, ih, pre_pre]
      rw [show min (k + 1) (n + 1) = min k n + 1 by omega, List.replicate_succ, show n + 1 - (min k n + 1) = n - min k n by omega]
      rfl

/-- A whole opcode has the operand bytes its tag tells. -/
theorem decodeOpcode_done_len {t : Byte} {ops : List Byte} {i : Instr} (h : decodeOpcode (t :: ops) = .done i) :
    ops.length = oplen (classify t) := by
  by_contra hne
  rw [decodeOpcode_notWhole t ops hne] at h
  exact notWhole_not_done _ _ _ _ h

/-- Reading an opcode whose bytes are in front (R162). -/
theorem readOpcode_done {l bs : List Byte} {i : Instr} (h : decodeOpcode l = .done i) : readOpcode (l ++ bs) = .ok (i, bs) := by
  match l, h with
  | [], h => cases h
  | t :: ops, h =>
    have hl := decodeOpcode_done_len h
    simp only [List.cons_append, readOpcode, readBytes]
    rw [if_neg (by simp; omega)]
    simp only [← hl, List.take_left', List.drop_left', decode, h]

/-- Too few bytes are an I/O error (R161). -/
theorem readOpcode_short (t : Byte) (ops : List Byte) (h : ops.length < oplen (classify t)) : readOpcode (t :: ops) = .error .shortRead := by
  simp only [readOpcode, readBytes]; rw [if_pos h]

/-- A position that reads an opcode (R162). -/
theorem refLoop_op (n : Nat) (p : Pixel) (m : Cache) {s s' : List Byte} {i : Instr} (h : readOpcode s = .ok (i, s')) :
    refLoop (n + 1) ⟨p, m, 0⟩ s = pre [((RefState.mk p m 0).apply i).px] (refLoop n ((RefState.mk p m 0).apply i) s') := by
  simp only [refLoop, h]
  rcases refLoop n ((RefState.mk p m 0).apply i) s' with e | ⟨o, r⟩ <;> rfl

/-- One opcode: the `k` pixels the machine emits are the next `k` of the reference loop (R104, R162). -/
theorem refLoop_opcode {s : State} {l bs : List Byte} {i : Instr} {p : Pixel} {m : Cache} {k : Nat}
    (ho : 1 ≤ owed s) (hd : decodeOpcode l = .done i) (hr : opcodeResult i s = some (p, m, k)) :
    refLoop (owed s) ⟨s.px, s.cache, 0⟩ (l ++ bs) = pre (List.replicate k p) (refLoop (owed s - k) ⟨p, m, 0⟩ bs) := by
  obtain ⟨n, hn⟩ : ∃ n, owed s = n + 1 := ⟨owed s - 1, by omega⟩
  rw [hn, refLoop_op n s.px s.cache (readOpcode_done hd)]
  cases i <;> simp only [opcodeResult, Option.some.injEq, Prod.mk.injEq, reduceCtorEq] at hr <;> obtain ⟨rfl, rfl, rfl⟩ := hr
  case run r =>
    simp only [RefState.apply]
    rw [refLoop_run, pre_pre, hn]
    have : min (runLength r) (n + 1) = min r.toNat n + 1 := by simp only [runLength]; omega
    rw [this, List.replicate_succ, show n + 1 - (min r.toNat n + 1) = n - min r.toNat n by omega]
    rfl
  all_goals rfl

end Sys2Proof.Machine
end

