-- ==== Sys2Proof/Tests/Slice0.lean ====
section
/-! SUPPORT. Tests. Expected values are those of spec/95_test_vectors.md or are worked by hand from the rules named; the witnesses show
for each statement with hypotheses a concrete state and operands that meet them. -/

open Sys2Proof Sys2Proof.Machine

namespace Sys2Proof.Tests

/-! ### Well-formedness -/

/-- 62 and 63 are the stored lengths the RGB and RGBA tags occupy (R74). -/
theorem test_wf_refuses_run_62_and_63 : (Instr.run 62).wf = false ∧ (Instr.run 63).wf = false := by decide

theorem test_wf_accepts_run_0_and_61 : (Instr.run 0).wf = true ∧ (Instr.run 61).wf = true := by decide

/-! ### Decoding: words written out bit by bit from R76 to R82 -/

/-- R76: bits 7:6 are 00, bits 5:0 the slot. -/
theorem test_decode_index : decode .opcode [0b00110101] = .done (.index 53) ∧ decode .opcode [0b00111111] = .done (.index 63) := by
  decide

/-- R77, vectors 7A, 6E, 6B, 79: red in bits 5:4, green in 3:2, blue in 1:0. -/
theorem test_decode_diff : decode .opcode [0b01111010] = .done (.diff 3 2 2) ∧ decode .opcode [0b01101110] = .done (.diff 2 3 2) ∧
    decode .opcode [0b01101011] = .done (.diff 2 2 3) ∧ decode .opcode [0b01111001] = .done (.diff 3 2 1) := by decide

/-- R78, vectors A5 6B and 9F F0: green in bits 5:0; red in the high nibble, blue in the low. -/
theorem test_decode_luma : decode .opcode [0b10100101, 0b01101011] = .done (.luma 37 6 11) ∧
    decode .opcode [0b10011111, 0b11110000] = .done (.luma 31 15 0) ∧ decode .opcode [0b10111111] = .needMore 1 := by decide

/-- R79, vectors C2 and FD. -/
theorem test_decode_run : decode .opcode [0b11000010] = .done (.run 2) ∧ decode .opcode [0b11111101] = .done (.run 61) := by decide

/-- R80: FE is RGB, never a run of 63; operand bytes are data. -/
theorem test_decode_rgb : decode .opcode [0b11111110] = .needMore 3 ∧
    decode .opcode [0b11111110, 0xFE, 0xFF, 0x00] = .done (.rgb 0xFE 0xFF 0) := by decide

/-- R81: FF is RGBA; r, g, b, a in this order. -/
theorem test_decode_rgba : decode .opcode [0b11111111, 1, 2] = .needMore 2 ∧
    decode .opcode [0b11111111, 1, 2, 3, 4] = .done (.rgba 1 2 3 4) := by decide

/-- R92: 'q', 'o', 'i', 'f'; a byte after a wrong one belongs to no item. -/
theorem test_decode_magic : decode .magic [0x71] = .done (.hdrMagic 0 0x71) ∧
    decode .magic [0x71, 0x6F, 0x78] = .done (.hdrMagic 2 0x78) ∧ decode .magic [0x78, 0x6F] = .reject .byteCountOverrun := by decide

/-- R93: big-endian. -/
theorem test_decode_width_height : decode .width [0x12, 0x34, 0x56, 0x78] = .done (.hdrWidth 305419896) ∧
    decode .width [0, 0, 1] = .needMore 1 ∧ decode .height [0, 0, 1, 2] = .done (.hdrHeight 258) := by decide

/-- R94, R95: one byte each, of any value. -/
theorem test_decode_channels_colorspace : decode .channels [5] = .done (.hdrChannels 5) ∧
    decode .colorspace [2] = .done (.hdrColorspace 2) := by decide

/-- Bytes that are no instruction are rejected by name (R136). -/
theorem test_decode_rejects : decode .opcode [0x09, 1] = .reject (.unknownTag 0x09) ∧
    decode .opcode [0xFE, 1, 2, 3, 4] = .reject .byteCountOverrun := by decide

/-- Table words: the first byte of an opcode row is the low byte; a header row has its first byte highest (log 7). -/
theorem test_table_words : decodeTableWord 32 0x1E140AFE = some (.rgb 10 20 30) ∧ decodeTableWord 16 0x6BA5 = some (.luma 37 6 11) ∧
    decodeTableWord 8 0xC2 = some (.run 2) ∧ decodeTableWord 40 0x04030201FF = some (.rgba 1 2 3 4) ∧
    decodeTableWord 32 0x716F6966 = some (.hdrMagic 3 0x66) ∧ decodeTableWord 32 0x12345678 = some (.hdrWidth 0x12345678) := by decide

/-- The word placed for reset runs in the next step: RUN 3 of the starting pixel, RGB 10 20 30. -/
theorem test_table_word_runs :
    (match step (State.reset.withFetchWord 8 0xC2) with
      | .next t => decide (t.result = some (.event (.pixels ⟨3, ⟨0, 0, 0, 255⟩⟩)))
      | _ => false) = true ∧
    (match step (State.reset.withFetchWord 32 0x1E140AFE) with
      | .next t => decide (t.px = ⟨10, 20, 30, 255⟩)
      | _ => false) = true := by decide

/-- R83: vectors of the programs P1 and P2. -/
theorem test_assemble : Line.assemble (.diff 1 0 (-1)) = [0x79] ∧ Line.assemble (.luma 5 (-2) 3) = [0xA5, 0x6B] ∧
    Line.assemble (.run 2) = [0xC1] ∧ Line.assemble (.index 53) = [0x35] ∧ Line.assemble (.diff (-2) (-1) 1) = [0x47] ∧
    Line.inRange (.run 63) = false ∧ Line.inRange (.index 64) = false := by decide

/-! ### The machine: one step or one effect each -/

/-- ParsingOp, Idle, 100 pixels owed, a last pixel of one's choice. -/
def opState (p : Pixel) : State := { State.reset with phase := .parsingOp, hdrCnt := 13, pxTarget := 100, px := p }

/-- In the header at byte `c`. -/
def hdrState (c : Fin 14) : State := { State.reset with phase := .parsingHeader, hdrCnt := c }

/-- `s` about to be fed `b`. -/
def fed (b : Byte) (s : State) : State := { s with host := [.feed], stream := [b] }

/-- The state after an outcome; the reset state after a stop. -/
def after : Host.Outcome State Fault Refusal → State
  | .next t => t
  | .fault _ => State.reset
  | .refused _ => State.reset

/-- Vectors 2.1: (10,20,30,255) in slot 9; (0,0,0,255) and (128,0,0,255) collide; a product alone wraps. -/
theorem test_hash : Machine.hash ⟨10, 20, 30, 255⟩ = 73 ∧ slot ⟨10, 20, 30, 255⟩ = 9 ∧ slot ⟨0, 0, 0, 255⟩ = 53 ∧
    slot ⟨128, 0, 0, 255⟩ = 53 ∧ Machine.hash ⟨86, 0, 0, 0⟩ = 2 ∧ Machine.hash ⟨255, 255, 255, 255⟩ = 230 := by decide

/-- Vector 2.7: alpha 4 is kept; slot 33. -/
theorem test_rgb : (after (exec (.rgb 254 255 0) (opState ⟨1, 2, 3, 4⟩))).px = ⟨254, 255, 0, 4⟩ ∧
    cacheRead (after (exec (.rgb 254 255 0) (opState ⟨1, 2, 3, 4⟩))).cache 33 = ⟨254, 255, 0, 4⟩ := by decide

/-- Vector 2.7: (1,2,3,4) to slot 14. -/
theorem test_rgba : cacheRead (after (exec (.rgba 1 2 3 4) (opState Pixel.start))).cache 14 = ⟨1, 2, 3, 4⟩ ∧
    (after (exec (.rgba 1 2 3 4) (opState Pixel.start))).pxCount = 1 := by decide

/-- Vector 2.3, the relocation: (1,2,3,4) read from slot 9 is written to slot 14, and slot 9 keeps it. -/
theorem test_index_relocates :
    let t := after (exec (.index 9) { opState Pixel.start with cache := cacheSet Cache.zeros 9 ⟨1, 2, 3, 4⟩ })
    t.px = ⟨1, 2, 3, 4⟩ ∧ cacheRead t.cache 14 = ⟨1, 2, 3, 4⟩ ∧ cacheRead t.cache 9 = ⟨1, 2, 3, 4⟩ := by decide

/-- Vector 2.3: the zero pixel of slot 7 overwrites slot 0. -/
theorem test_index_overwrites_slot_zero :
    cacheRead (after (exec (.index 7)
      { opState ⟨0, 0, 0, 64⟩ with cache := cacheSet Cache.zeros 0 ⟨0, 0, 0, 64⟩ })).cache 0 = ⟨0, 0, 0, 0⟩ := by decide

/-- Vector 2.4, byte 79: +1, 0, -1; slot 5. -/
theorem test_diff : (after (exec (.diff 3 2 1) (opState ⟨10, 20, 30, 255⟩))).px = ⟨11, 20, 29, 255⟩ ∧
    cacheRead (after (exec (.diff 3 2 1) (opState ⟨10, 20, 30, 255⟩))).cache 5 = ⟨11, 20, 29, 255⟩ := by decide

/-- Vector 2.4, byte 40: wraps down, alpha kept. -/
theorem test_diff_wraps : (after (exec (.diff 0 0 0) (opState ⟨1, 0, 1, 7⟩))).px = ⟨255, 254, 255, 7⟩ := by decide

/-- Vector 2.5, bytes 9F F0: the high nibble is red's. -/
theorem test_luma : (after (exec (.luma 31 15 0) (opState ⟨10, 20, 30, 40⟩))).px = ⟨16, 19, 21, 40⟩ := by decide

/-- Vector 2.5, bytes 80 00: wraps; slot 5. -/
theorem test_luma_wraps : (after (exec (.luma 0 0 0) (opState Pixel.start))).px = ⟨216, 224, 216, 255⟩ ∧
    cacheRead (after (exec (.luma 0 0 0) (opState Pixel.start))).cache 5 = ⟨216, 224, 216, 255⟩ := by decide

/-- Vector 2.6, FD with 5 owed: clamped, and the step ends in Finished. -/
theorem test_run_clamps :
    let t := after (step (fed 0xFD { opState ⟨10, 20, 30, 255⟩ with pxCount := 95 }))
    t.phase = .finished ∧ t.pxCount = 100 ∧ t.result = some (.event (.pixels ⟨5, ⟨10, 20, 30, 255⟩⟩)) := by decide

/-- Vector 2.6, C1 on the reset cache: slot 53 is not written. -/
theorem test_run_writes_no_cache : cacheRead (after (exec (.run 1) (opState Pixel.start))).cache 53 = ⟨0, 0, 0, 0⟩ := by decide

/-- Vector 2.2: the third magic byte wrong; NeedMore(7) after the first. -/
theorem test_magic : (after (step (fed 0x78 (hdrState 2)))).result = some (.error (.badMagic 2 0x78)) ∧
    (after (step (fed 0x78 (hdrState 2)))).phase = .aborted ∧
    (after (step (fed 0x71 State.reset))).result = some (.event (.needMore 7)) := by decide

/-- Vector 2.2: 0xFFFFFFFF by 0xFFFFFFFF is exact. -/
theorem test_width_height :
    (after (exec (.hdrWidth 0xFFFFFFFF) (hdrState 7))).pxTarget = 0xFFFFFFFF ∧
    (after (exec (.hdrHeight 0xFFFFFFFF) { hdrState 11 with pxTarget := 0xFFFFFFFF })).pxTarget = 0xFFFFFFFE00000001 := by decide

/-- The fourth width byte is the least significant. -/
theorem test_width_step :
    (after (step (fed 0x78 { hdrState 7 with scratch := ⟨#[0x12, 0x34, 0x56, 0], rfl⟩ }))).result =
      some (.event (.imageWidthParsed 305419896)) := by decide

/-- Vector 2.2: 5 channels. -/
theorem test_channels : (after (step (fed 5 (hdrState 12)))).result = some (.error (.badChannels 5)) ∧
    (after (step (fed 4 (hdrState 12)))).hdrCnt = 13 := by decide

/-- Vector 2.2: a zero-pixel image is Finished at byte 13, with the event of byte 13; colorspace 2. -/
theorem test_colorspace : (after (step (fed 0 (hdrState 13)))).phase = .finished ∧
    (after (step (fed 0 (hdrState 13)))).result = some (.event .imageColorspaceParsed) ∧
    (after (step (fed 2 (hdrState 13)))).result = some (.error (.badColorspace 2)) := by decide

/-- Vector 2.7, the second byte of FE 0A 14 1E. -/
theorem test_operand_byte :
    let t := after (step (fed 0x0A { opState Pixel.start with opBusy := true, opTag := 0xFE, scratch := ⟨#[0, 0, 0, 2], rfl⟩ }))
    t.opNread = 1 ∧ t.scratch = ⟨#[10, 0, 0, 2], rfl⟩ ∧ t.result = some (.event (.needMore 2)) := by decide

/-- R145, R171: codes. -/
theorem test_codes : Event.code .finished = 6 ∧ Err.code (.byteCountOverrun 4) = some 6 ∧ Phase.code .aborted = 4 := by decide

/-- D14: r in bits 31:24. -/
theorem test_pack : Pixel.pack ⟨0x11, 0x22, 0x33, 0x44⟩ = 0x11223344 := by decide

/-- Vectors S5 and 2.2 for the parse. -/
theorem test_parse :
    parse [0x71, 0x6F, 0x69, 0x66, 0, 0, 1, 2, 0, 0, 0, 3, 4, 1] = .ok ⟨258, 3, 4, 1⟩ ∧
    parse [0x71, 0x6F, 0x69, 0x66, 0, 0, 0, 1, 0, 0, 0, 1, 5, 2] = .error (.badChannels 5) ∧
    parse [0x71, 0x6F, 0x69, 0x66, 0, 0, 0, 1, 0, 0, 0, 1, 3] = .error (.truncated 13) := ⟨rfl, rfl, rfl⟩

/-- Program P3 under the reference: relocation, and the clamp of the run by the loop. -/
theorem test_reference_P3 :
    decodeRef [0x71, 0x6F, 0x69, 0x66, 0, 0, 0, 1, 0, 0, 0, 4, 4, 0, 0xFF, 0, 0, 0, 0x40, 0x07, 0x00, 0xC4, 0xAA] =
      .ok (⟨1, 4, 4, 0⟩, [⟨0, 0, 0, 64⟩, ⟨0, 0, 0, 0⟩, ⟨0, 0, 0, 0⟩, ⟨0, 0, 0, 0⟩], [0xAA]) := rfl

/-! ### Witnesses: for each statement with hypotheses, concrete values that meet them, and for each clause one at a boundary -/

theorem inv_opState (p : Pixel) : (opState p).Inv := by
  refine ⟨?_, ?_, ?_, ?_, ?_, ?_, ?_, ?_, ?_, ?_, ?_, ?_, ?_⟩ <;> simp [opState, State.reset, State.inHeader]

theorem inv_start (bytes : List Byte) (ops : List HostOp) : State.Inv { State.start bytes with host := ops } := by
  refine ⟨?_, ?_, ?_, ?_, ?_, ?_, ?_, ?_, ?_, ?_, ?_, ?_, ?_⟩ <;> simp [State.start, State.reset, State.inHeader, Cache.zeros]

theorem cacheInv_start (bytes : List Byte) (ops : List HostOp) : State.CacheInv { State.start bytes with host := ops } :=
  ⟨fun _ => .inr ⟨rfl, rfl⟩, fun _ i => .inl (by simp [State.start, State.reset, cacheRead, Pixel.zero])⟩

/-- The header state at byte `c` with a target that fits there. -/
theorem inv_hdrState (c : Fin 14) : (hdrState c).Inv := by
  refine ⟨?_, ?_, ?_, ?_, ?_, ?_, ?_, ?_, ?_, ?_, ?_, ?_, ?_⟩ <;> simp [hdrState, State.reset, State.inHeader, Cache.zeros]

/-- Finished after one pixel. -/
def doneState : State := { State.reset with phase := .finished, hdrCnt := 13, pxCount := 1, pxTarget := 1 }

/-- Aborted, as far as the model knows it. -/
def abortedState : State := { State.reset with phase := .aborted }

/-- `tag` in flight with `n` operand bytes taken. -/
def busy (tag : Byte) (n : BitVec 3) : State := { opState Pixel.start with opBusy := true, opTag := tag, opNread := n }

theorem fed_feeds (b : Byte) (s : State) (h : s.itCount = 0) : (fed b s).feeds b [] [] := ⟨rfl, rfl, h⟩

theorem witness_ResetRestoresDecoder :
    ({ busy 0xFF 2 with host := [.reset, .reset], itCount := 2 } : State).host = .reset :: [.reset] := rfl

theorem witness_PowerOnIsResetWithEmptyIterator : ({ doneState with host := [.powerOn] } : State).host = .powerOn :: [] := rfl

theorem witness_CacheLastWriterWins : (53#6).toNat = hashSum ⟨0, 0, 0, 255⟩ % 64 ∧
    hashSum ⟨128, 0, 0, 255⟩ % 64 = hashSum ⟨0, 0, 0, 255⟩ % 64 := by decide

theorem witness_TagMapIsTotal :
    (0x00#8).toNat ≤ 0x3F ∧ (0x3F#8).toNat ≤ 0x3F ∧ 0x40 ≤ (0x40#8).toNat ∧ (0x7F#8).toNat ≤ 0x7F ∧ 0x80 ≤ (0x80#8).toNat ∧
    (0xBF#8).toNat ≤ 0xBF ∧ 0xC0 ≤ (0xC0#8).toNat ∧ (0xFD#8).toNat ≤ 0xFD ∧ (0xFE#8).toNat = 0xFE ∧ (0xFF#8).toNat = 0xFF := by
  decide

theorem witness_DecodeEncodeRoundTrip : (Instr.run 61).wf = true ∧ (Instr.luma 63 15 15).wf = true := by decide

theorem witness_DecodedBytesAreItsEncoding : decode .opcode [0xFD] = .done (.run 61) ∧
    decode .magic [0x71, 0x6F] = .done (.hdrMagic 1 0x6F) ∧ decode .width [255, 255, 255, 255] = .done (.hdrWidth 0xFFFFFFFF) := by
  decide

theorem witness_OpcodePrefixesAwaitTheRest : (Instr.rgba 1 2 3 4).wf = true ∧ (Instr.rgba 1 2 3 4).item = .opcode ∧ 0 < 4 ∧
    4 < (encode (.rgba 1 2 3 4)).length ∧ 0 < 1 ∧ 1 < (encode (.luma 63 0 15)).length := by decide

theorem witness_AssemblerLinesDecode : Line.inRange (.index 63) = true ∧ Line.inRange (.diff (-2) 1 (-2)) = true ∧
    Line.inRange (.luma (-32) (-8) 7) = true ∧ Line.inRange (.luma 31 7 (-8)) = true ∧ Line.inRange (.run 1) = true ∧
    Line.inRange (.run 62) = true := by decide

theorem witness_StepRunsDecodedInstruction :
    ((fed 0x71 State.reset).feeds 0x71 [] [] ∧ State.reset.phase = .notStarted ∧
      decode (nextItem (fed 0x71 State.reset)) (inFlight (fed 0x71 State.reset) ++ [0x71]) = .done (.hdrMagic 0 0x71)) ∧
    ((fed 9 (hdrState 11)).feeds 9 [] [] ∧ (fed 9 (hdrState 11)).phase = .parsingHeader ∧
      decode (nextItem (fed 9 (hdrState 11))) (inFlight (fed 9 (hdrState 11)) ++ [9]) = .done (.hdrHeight 9)) ∧
    ((fed 7 (busy 0xFE 2)).feeds 7 [] [] ∧ (fed 7 (busy 0xFE 2)).phase = .parsingOp ∧
      decode (nextItem (fed 7 (busy 0xFE 2))) (inFlight (fed 7 (busy 0xFE 2)) ++ [7]) = .done (.rgb 0 0 7)) :=
  ⟨⟨fed_feeds _ _ rfl, rfl, by decide⟩, ⟨fed_feeds _ _ rfl, rfl, by decide⟩, ⟨fed_feeds _ _ rfl, rfl, by decide⟩⟩

theorem witness_TableWordRunsNext : decodeTableWord 40 0xFFFFFFFFFF = some (.rgba 255 255 255 255) ∧
    decodeTableWord 32 0x716F6966 = some (.hdrMagic 3 0x66) ∧ decodeTableWord 32 0 = some (.hdrWidth 0) ∧
    decodeTableWord 8 0 = some (.index 0) := by decide

theorem witness_RunExecutes : (61#6).toNat ≤ 61 ∧
    ({ opState Pixel.start with pxCount := 99 } : State).pxCount.toNat < ({ opState Pixel.start with pxCount := 99 } : State).pxTarget.toNat := by
  decide

theorem witness_AlphaChangesOnlyThroughRgbaAndIndex :
    (∃ t, exec (.rgba 1 2 3 4) (opState Pixel.start) = .next t ∧ t.phase ≠ .aborted ∧ t.px.a ≠ (opState Pixel.start).px.a) ∧
    ∃ t, exec (.index 63) (opState Pixel.start) = .next t ∧ t.phase ≠ .aborted ∧ t.px.a ≠ (opState Pixel.start).px.a :=
  ⟨⟨_, rfl, by decide, by decide⟩, ⟨_, rfl, by decide, by decide⟩⟩

theorem witness_MagicByteExecutes : (0x71 : Byte) = [0x71, 0x6F, 0x69, 0x66].getD (0 : Fin 4).val 0 ∧
    (0x66 : Byte) = [0x71, 0x6F, 0x69, 0x66].getD (3 : Fin 4).val 0 ∧ (0x46 : Byte) ≠ [0x71, 0x6F, 0x69, 0x66].getD (3 : Fin 4).val 0 ∧
    (fed 0x66 (hdrState 3)).feeds 0x66 [] [] ∧ (hdrState 3).phase = .parsingHeader ∧ (hdrState 3).hdrCnt.val = (3 : Fin 4).val ∧
    (hdrState 0).hdrCnt.val = (0 : Fin 4).val :=
  ⟨by decide, by decide, by decide, fed_feeds _ _ rfl, rfl, rfl, rfl⟩

theorem witness_HeightExecutes : ({ hdrState 11 with pxTarget := 0xFFFFFFFF } : State).pxTarget.toNat < 2 ^ 32 ∧
    (fed 1 (hdrState 11)).feeds 1 [] [] ∧ (hdrState 11).phase = .parsingHeader ∧ (hdrState 11).hdrCnt.val = 11 :=
  ⟨by decide, fed_feeds _ _ rfl, rfl, rfl⟩

theorem witness_WidthExecutes : (fed 255 (hdrState 7)).feeds 255 [] [] ∧ (hdrState 7).phase = .parsingHeader ∧
    (hdrState 7).hdrCnt.val = 7 := ⟨fed_feeds _ _ rfl, rfl, rfl⟩

theorem witness_ChannelsExecutes : (3#8).toNat = 3 ∧ (4#8).toNat = 4 ∧ ((2#8).toNat ≠ 3 ∧ (2#8).toNat ≠ 4) ∧
    ((5#8).toNat ≠ 3 ∧ (5#8).toNat ≠ 4) ∧
    (fed 3 (hdrState 12)).feeds 3 [] [] ∧ (hdrState 12).phase = .parsingHeader ∧ (hdrState 12).hdrCnt.val = 12 :=
  ⟨by decide, by decide, by decide, by decide, fed_feeds _ _ rfl, rfl, rfl⟩

theorem witness_ColorspaceExecutes : (0#8).toNat = 0 ∧ (1#8).toNat = 1 ∧ (2#8).toNat ≠ 0 ∧ (2#8).toNat ≠ 1 := by decide

theorem witness_ColorspaceByteEntersOpcodeStream :
    ((fed 0 (hdrState 13)).feeds 0 [] [] ∧ (hdrState 13).phase = .parsingHeader ∧ (hdrState 13).hdrCnt.val = 13 ∧ (0#8).toNat = 0 ∧
      (hdrState 13).pxCount = (hdrState 13).pxTarget) ∧
    ((fed 1 { hdrState 13 with pxTarget := 1 }).feeds 1 [] [] ∧ (1#8).toNat = 1 ∧
      ({ hdrState 13 with pxTarget := 1 } : State).pxCount ≠ ({ hdrState 13 with pxTarget := 1 } : State).pxTarget) ∧
    ((fed 2 (hdrState 13)).feeds 2 [] [] ∧ (2#8).toNat ≠ 0 ∧ (2#8).toNat ≠ 1) :=
  ⟨⟨fed_feeds _ _ rfl, rfl, rfl, rfl, rfl⟩, ⟨fed_feeds _ _ rfl, rfl, by decide⟩, ⟨fed_feeds _ _ rfl, by decide, by decide⟩⟩

theorem witness_FirstByteIsHeaderByteZero : (fed 0x71 State.reset).feeds 0x71 [] [] ∧ (fed 0x71 State.reset).phase = .notStarted ∧
    (0x71#8).toNat = 0x71 ∧ (fed 0x70 State.reset).feeds 0x70 [] [] ∧ (0x70#8).toNat ≠ 0x71 :=
  ⟨fed_feeds _ _ rfl, rfl, rfl, fed_feeds _ _ rfl, by decide⟩

theorem witness_WidthAndHeightBytesGather : (fed 1 (hdrState 4)).feeds 1 [] [] ∧ (fed 1 (hdrState 4)).phase = .parsingHeader ∧
    (hdrState 4).hdrCnt.val = 4 + 0 ∧ (hdrState 6).hdrCnt.val = 4 + 2 ∧ (hdrState 8).hdrCnt.val = 8 + 0 ∧ (hdrState 10).hdrCnt.val = 8 + 2 :=
  ⟨fed_feeds _ _ rfl, rfl, rfl, rfl, rfl, rfl⟩

theorem witness_OneByteOpcodeCompletesOnItsTag : (fed 0x3F (opState Pixel.start)).feeds 0x3F [] [] ∧
    (opState Pixel.start).phase = .parsingOp ∧ (opState Pixel.start).opBusy = false ∧
    classify 0x3F = .index ∧ classify 0x40 = .diff ∧ classify 0x7F = .diff ∧ classify 0xC0 = .run ∧ classify 0xFD = .run :=
  ⟨fed_feeds _ _ rfl, rfl, rfl, by decide, by decide, by decide, by decide, by decide⟩

theorem witness_MultiByteTagAwaitsItsOperands : (fed 0xFE (opState Pixel.start)).feeds 0xFE [] [] ∧
    (opState Pixel.start).phase = .parsingOp ∧ (opState Pixel.start).opBusy = false ∧
    (opState Pixel.start).pxCount ≠ (opState Pixel.start).pxTarget ∧
    (0xFE#8).toNat = 0xFE ∧ (0xFF#8).toNat = 0xFF ∧ 0x80 ≤ (0x80#8).toNat ∧ (0xBF#8).toNat ≤ 0xBF :=
  ⟨fed_feeds _ _ rfl, rfl, rfl, by decide, rfl, rfl, by decide, by decide⟩

theorem witness_OperandByteWaitsInScratch :
    ((fed 5 (busy 0xFE 1)).feeds 5 [] [] ∧ (busy 0xFE 1).phase = .parsingOp ∧ (busy 0xFE 1).opBusy = true ∧
      (busy 0xFE 1).pxCount ≠ (busy 0xFE 1).pxTarget ∧ (busy 0xFE 1).opNread.toNat = 1 ∧ (busy 0xFE 1).opTag = 0xFE ∧ 1 + 1 < 3) ∧
    ((fed 5 (busy 0xFF 2)).feeds 5 [] [] ∧ (busy 0xFF 2).opNread.toNat = 2 ∧ (busy 0xFF 2).opTag = 0xFF ∧ 2 + 1 < 4) ∧
    (busy 0xFF 0).opNread.toNat = 0 :=
  ⟨⟨fed_feeds _ _ rfl, rfl, rfl, by decide, rfl, rfl, by decide⟩, ⟨fed_feeds _ _ rfl, rfl, rfl, by decide⟩, rfl⟩

theorem witness_LastOperandByteCompletesOpcode :
    ((fed 5 (busy 0xFE 2)).feeds 5 [] [] ∧ (busy 0xFE 2).opTag = 0xFE ∧ (busy 0xFE 2).opNread = 2) ∧
    ((fed 5 (busy 0xFF 3)).feeds 5 [] [] ∧ (busy 0xFF 3).opTag = 0xFF ∧ (busy 0xFF 3).opNread = 3) ∧
    ((fed 5 (busy 0x80 0)).feeds 5 [] [] ∧ 0x80 ≤ (busy 0x80 0).opTag.toNat ∧ (busy 0xBF 0).opTag.toNat ≤ 0xBF ∧
      (busy 0x80 0).phase = .parsingOp ∧ (busy 0x80 0).opBusy = true ∧ (busy 0x80 0).opNread = 0) :=
  ⟨⟨fed_feeds _ _ rfl, rfl, rfl⟩, ⟨fed_feeds _ _ rfl, rfl, rfl⟩, ⟨fed_feeds _ _ rfl, by decide, by decide, rfl, rfl, rfl⟩⟩

theorem witness_IllegalOpcodeRegistersRaise :
    ((fed 5 (busy 0xFE 3)).feeds 5 [] [] ∧ (busy 0xFE 3).phase = .parsingOp ∧ (busy 0xFE 3).opBusy = true ∧
      ¬ LegalInFlight (busy 0xFE 3).opTag (busy 0xFE 3).opNread ∧ classify (busy 0xFE 3).opTag = .rgb) ∧
    (¬ LegalInFlight 0xFF 4 ∧ ¬ LegalInFlight 0x80 1 ∧ ¬ LegalInFlight 0x7F 0 ∧ ¬ LegalInFlight 0xC0 7 ∧ classify 0x7F = .diff) := by
  refine ⟨⟨fed_feeds _ _ rfl, rfl, rfl, ?_, by decide⟩, ?_, ?_, ?_, ?_, by decide⟩ <;> unfold LegalInFlight <;> decide

theorem witness_OpcodeResumesByteByByte :
    let s : State := { opState Pixel.start with stream := encode (.rgba 1 2 3 4) ++ [0xAA] }
    (Instr.rgba 1 2 3 4).wf = true ∧ (Instr.rgba 1 2 3 4).item = .opcode ∧ s.Inv ∧ s.phase = .parsingOp ∧ s.opBusy = false ∧
      s.itCount = 0 ∧ s.stream = encode (.rgba 1 2 3 4) ++ [0xAA] ∧ 4 < (encode (.rgba 1 2 3 4)).length :=
  ⟨rfl, rfl, { inv_opState Pixel.start with }, rfl, rfl, rfl, rfl, by decide⟩

/-- Both ends of R141: with two pixels owed INDEX leaves ParsingOp, with one owed Finished. -/
theorem witness_FinishedExactlyAtTarget :
    (∃ t, step (fed 0 { opState Pixel.start with pxCount := 98 }) = .next t ∧ t.phase ≠ .aborted ∧ t.phase = .parsingOp) ∧
    (fed 0 { opState Pixel.start with pxCount := 99 }).feeds 0 [] [] ∧
    ∃ t, step (fed 0 { opState Pixel.start with pxCount := 99 }) = .next t ∧ t.phase ≠ .aborted ∧ t.phase = .finished :=
  ⟨⟨_, rfl, by decide, by decide⟩, fed_feeds _ _ rfl, ⟨_, rfl, by decide, by decide⟩⟩

theorem witness_FinishedIgnoresBytes : (fed 0xFE doneState).feeds 0xFE [] [] ∧ (fed 0xFE doneState).phase = .finished :=
  ⟨fed_feeds _ _ rfl, rfl⟩

theorem witness_AbortedRefusesFeed : (fed 0x71 abortedState).phase = .aborted ∧ (fed 0x71 abortedState).feeds 0x71 [] [] ∧
    ({ abortedState with host := [.reset] } : State).host = .reset :: [] ∧
    ({ abortedState with host := [.next] } : State).host = .next :: [] := ⟨rfl, fed_feeds _ _ rfl, rfl, rfl⟩

theorem witness_FeedHeldWhileIteratorHolds : (fed 9 { opState Pixel.start with itCount := 1 }).host = .feed :: [] ∧
    (fed 9 { opState Pixel.start with itCount := 1 }).itCount ≠ 0 := ⟨rfl, by decide⟩

theorem witness_NextYieldsAndCountsDown : ({ doneState with host := [.next] } : State).itCount = 0 ∧
    ({ doneState with host := [.next], itCount := 1 } : State).itCount ≠ 0 ∧
    ({ doneState with host := [.next], itCount := 62 } : State).itCount ≠ 0 := by decide

theorem witness_IteratorYieldsExactlyItsCount :
    ({ doneState with itCount := 2, host := [.next, .next, .next, .feed] } : State).host =
      List.replicate ((2#8).toNat + 1) .next ++ [.feed] ∧ 0 < 1 := ⟨rfl, by decide⟩

theorem witness_FeedIgnoresIteratorPixel : (fed 0 (opState Pixel.start)).feeds 0 [] [] ∧
    ∃ t, step (fed 0 (opState Pixel.start)) = .next t ∧ t.itCount ≠ 0 := ⟨fed_feeds _ _ rfl, _, rfl, by decide⟩

theorem witness_StepKeepsInv : (fed 9 (opState Pixel.start)).Inv ∧ ∃ t, step (fed 9 (opState Pixel.start)) = .next t :=
  ⟨{ inv_opState Pixel.start with }, _, rfl⟩

theorem witness_EveryRunMeetsInv : ∃ t out, runOut 2 { State.start [0x71] with host := [.next, .feed] } = some (t, out) := ⟨_, _, rfl⟩

theorem witness_StepKeepsCacheInv : State.Inv { State.start [0x71] with host := [.feed] } ∧
    State.CacheInv { State.start [0x71] with host := [.feed] } ∧ ∃ t, step { State.start [0x71] with host := [.feed] } = .next t :=
  ⟨inv_start _ _, cacheInv_start _ _, _, rfl⟩

theorem witness_CountFollowsPixelsEmitted :
    (State.Inv (fed 0xFD (opState Pixel.start)) ∧ ∃ t, step (fed 0xFD (opState Pixel.start)) = .next t ∧
      t.result = some (.event (.pixels ⟨62, Pixel.start⟩))) ∧
    (State.Inv (fed 0xFF (opState Pixel.start)) ∧ ∃ t, step (fed 0xFF (opState Pixel.start)) = .next t ∧
      (∀ it, t.result ≠ some (.event (.pixels it))) ∧ (∀ e, t.result ≠ some (.error e)) ∧
      (fed 0xFF (opState Pixel.start)).host.head? ≠ some .reset ∧ (fed 0xFF (opState Pixel.start)).host.head? ≠ some .powerOn) := by
  refine ⟨⟨{ inv_opState Pixel.start with }, _, rfl, by decide⟩, { inv_opState Pixel.start with }, _, rfl, ?_, ?_, by decide, by decide⟩
  · intro it h; cases h
  · intro e h; cases h

/-- Each error at its byte, and no error where the byte is right. -/
theorem witness_OnlyBadHeaderBytesRaise :
    (∀ c : Fin 14, State.Inv (fed 2 (hdrState c)) ∧ (fed 2 (hdrState c)).feeds 2 [] []) ∧
    (∃ t, step (fed 2 (hdrState 3)) = .next t ∧ t.result = some (.error (.badMagic 3 2))) ∧
    (∃ t, step (fed 2 (hdrState 12)) = .next t ∧ t.result = some (.error (.badChannels 2))) ∧
    (∃ t, step (fed 2 (hdrState 13)) = .next t ∧ t.result = some (.error (.badColorspace 2))) ∧
    ∃ t, step (fed 3 (hdrState 12)) = .next t ∧ t.result = some (.event .imageChannelParsed) :=
  ⟨fun c => ⟨{ inv_hdrState c with }, fed_feeds _ _ rfl⟩, ⟨_, rfl, by decide⟩, ⟨_, rfl, by decide⟩, ⟨_, rfl, by decide⟩,
    ⟨_, rfl, by decide⟩⟩

theorem witness_OnlyResetLeavesFinishedOrAborted :
    (∃ t, step (fed 1 doneState) = .next t ∧ (fed 1 doneState).phase = .finished ∧ (fed 1 doneState).host.head? ≠ some .reset ∧
      (fed 1 doneState).host.head? ≠ some .powerOn) ∧
    ∃ t, step { abortedState with host := [.next] } = .next t ∧ abortedState.phase = .aborted :=
  ⟨⟨_, rfl, rfl, by decide, by decide⟩, ⟨_, rfl, rfl⟩⟩

/-- One step for each transition that exists. -/
theorem witness_PhaseMovesOnlyForward :
    (∃ t, step (fed 0x71 State.reset) = .next t ∧ t.phase ≠ State.reset.phase ∧ t.phase = .parsingHeader) ∧
    (∃ t, step (fed 0 { hdrState 13 with pxTarget := 1 }) = .next t ∧ t.phase = .parsingOp) ∧
    (∃ t, step (fed 0 (hdrState 13)) = .next t ∧ t.phase = .finished) ∧
    (∃ t, step (fed 0 { opState Pixel.start with pxCount := 99 }) = .next t ∧ t.phase = .finished) ∧
    (∃ t, step (fed 0 State.reset) = .next t ∧ t.phase = .aborted) ∧
    ∃ t, step { doneState with host := [.reset] } = .next t ∧ t.phase = .notStarted :=
  ⟨⟨_, rfl, by decide, by decide⟩, ⟨_, rfl, by decide⟩, ⟨_, rfl, by decide⟩, ⟨_, rfl, by decide⟩, ⟨_, rfl, by decide⟩, ⟨_, rfl, by decide⟩⟩

theorem witness_HeaderRoundTrip : (Header.mk 258 3 4 1).channels.toNat = 4 ∧ (Header.mk 258 3 4 1).colorspace.toNat = 1 ∧
    (Header.mk 0 7 3 0).channels.toNat = 3 ∧ (Header.mk 0 7 3 0).colorspace.toNat = 0 := by decide

/-- A buffer that is too short; a wrong byte at the first and at the last magic position; the channels test before the colorspace test. -/
theorem witness_ParseChecksInOrder :
    ([] : List Byte).length ≠ 14 ∧ (List.replicate 15 (0 : Byte)).length ≠ 14 ∧
    (let h : List Byte := 0x78 :: List.replicate 13 0
     h.length = 14 ∧ h.getD 0 0 ≠ [0x71, 0x6F, 0x69, 0x66].getD 0 0 ∧ h.take 0 = ([0x71, 0x6F, 0x69, 0x66] : List Byte).take 0) ∧
    (let h : List Byte := [0x71, 0x6F, 0x69, 0x46, 0, 0, 0, 0, 0, 0, 0, 0, 5, 2]
     h.length = 14 ∧ h.getD 3 0 ≠ [0x71, 0x6F, 0x69, 0x66].getD 3 0 ∧ h.take 3 = ([0x71, 0x6F, 0x69, 0x66] : List Byte).take 3) ∧
    ((5 : Byte) ≠ 3 ∧ (5 : Byte) ≠ 4) ∧ (2 : Byte) ≠ 0 ∧ (2 : Byte) ≠ 1 := by decide

theorem witness_StreamingHeaderMatchesParse :
    parse [0x71, 0x6F, 0x69, 0x66, 0, 0, 0, 3, 0, 0, 0, 2, 4, 0] = .ok ⟨3, 2, 4, 0⟩ ∧
    parse [0x71, 0x6F, 0x69, 0x66, 0, 0, 0, 0, 0, 0, 0, 7, 4, 0] = .ok ⟨0, 7, 4, 0⟩ ∧
    parse [0x71, 0x6F, 0x69, 0x46, 0, 0, 0, 0, 0, 0, 0, 0, 5, 2] = .error (.badMagic 3 0x46) ∧
    parse [0x71, 0x6F, 0x69, 0x66, 0, 0, 0, 1, 0, 0, 0, 1, 5, 0] = .error (.badChannels 5) ∧
    parse [0x71, 0x6F, 0x69, 0x66, 0, 0, 0, 1, 0, 0, 0, 1, 3, 2] = .error (.badColorspace 2) := ⟨rfl, rfl, rfl, rfl, rfl⟩

/-- A 1 x 2 image of one RGB and a run of 62 that the image cuts to one, with a byte left over. -/
theorem witness_StreamingMatchesReference :
    decodeRef [0x71, 0x6F, 0x69, 0x66, 0, 0, 0, 1, 0, 0, 0, 2, 3, 0, 0xFE, 1, 2, 3, 0xFD, 0xAA] =
      .ok (⟨1, 2, 3, 0⟩, [⟨1, 2, 3, 255⟩, ⟨1, 2, 3, 255⟩], [0xAA]) := rfl

theorem witness_ReferenceFillsExactly :
    decodeRef [0x71, 0x6F, 0x69, 0x66, 0, 0, 0, 0, 0, 0, 0, 7, 4, 0, 0xFE] = .ok (⟨0, 7, 4, 0⟩, [], [0xFE]) := rfl

/-- Cut inside an opcode, and cut right after the header; cut inside it at the first byte, in the magic and before the colorspace. -/
theorem witness_TruncatedStreamWaits :
    (14 ≤ ([0x71, 0x6F, 0x69, 0x66, 0, 0, 0, 1, 0, 0, 0, 2, 3, 0, 0x3F, 0x80] : List Byte).length ∧
      decodeRef [0x71, 0x6F, 0x69, 0x66, 0, 0, 0, 1, 0, 0, 0, 2, 3, 0, 0x3F, 0x80] = .error .shortRead) ∧
    decodeRef [0x71, 0x6F, 0x69, 0x66, 0, 0, 0, 1, 0, 0, 0, 2, 3, 0] = .error .shortRead ∧
    ∀ s ∈ ([[], [0x71, 0x6F, 0x69], [0x71, 0x6F, 0x69, 0x66, 0, 0, 0, 1, 0, 0, 0, 2, 4]] : List (List Byte)),
      s.length < 14 ∧ (∀ k, k < 4 → k < s.length → s.getD k 0 = [0x71, 0x6F, 0x69, 0x66].getD k 0) ∧
        (s.length = 13 → s.getD 12 0 = 3 ∨ s.getD 12 0 = 4) := ⟨⟨by decide, rfl⟩, rfl, by decide⟩

/-- The stream of a zero-pixel image, whose run ends with its header. -/
def zeroImage : List Byte := [0x71, 0x6F, 0x69, 0x66, 0, 0, 0, 0, 0, 0, 0, 7, 4, 0]

theorem witness_DeliveredPixelsAreTheTarget :
    let s : State := { State.start zeroImage with host := List.replicate 14 .feed }
    s.Inv ∧ s.phase = .notStarted ∧ s.itCount = 0 ∧ NoReset s.host ∧
      ∃ t, runOut 14 s = some (t, []) ∧ t.phase ≠ .aborted ∧ t.ended :=
  ⟨inv_start _ _, rfl, rfl, fun op h => .inl (List.eq_of_mem_replicate h), _, rfl, by decide, rfl, rfl⟩

theorem witness_EnoughBytesReachFinished :
    let s : State := { opState Pixel.start with pxCount := 99, stream := [0xFF, 1, 2, 3, 4] }
    s.Inv ∧ s.phase = .parsingOp ∧ s.opBusy = false ∧ 5 * (s.pxTarget.toNat - s.pxCount.toNat) ≤ s.stream.length := by
  refine ⟨⟨?_, ?_, ?_, ?_, ?_, ?_, ?_, ?_, ?_, ?_, ?_, ?_, ?_⟩, rfl, rfl, by decide⟩ <;> simp [opState, State.reset, State.inHeader]

/-- For each clause the inputs of one cycle and a state: the power-on reset; a reset with a byte and a pixel taken; `NEXT()` of the last
and of the first of 62 pixels, a byte being offered; `FEED`; pixels held; no byte offered; a byte offered in Aborted. -/
theorem witness_ClockCyclePerformsOperations :
    (let p : PortsIn := ⟨true, false, false, 0, false⟩; p.rst = true) ∧
    (let p : PortsIn := ⟨false, true, true, 0, true⟩; p.rst = false ∧ p.softReset = true) ∧
    (let p : PortsIn := ⟨false, false, true, 0, true⟩
     let s : State := { opState Pixel.start with itCount := 1 }
     p.rst = false ∧ p.softReset = false ∧ s.itCount ≠ 0 ∧ ({ s with itCount := 62 } : State).itCount ≠ 0 ∧ p.pxReady = true) ∧
    (let p : PortsIn := ⟨false, false, true, 0xFE, true⟩
     let s := opState Pixel.start
     p.rst = false ∧ p.softReset = false ∧ p.inValid = true ∧ s.itCount = 0 ∧ s.phase ≠ .aborted) ∧
    (let p : PortsIn := ⟨false, false, true, 0, false⟩
     let s : State := { opState Pixel.start with itCount := 1 }
     p.rst = false ∧ p.softReset = false ∧ s.itCount ≠ 0 ∧ p.pxReady = false) ∧
    (let p : PortsIn := ⟨false, false, false, 0, true⟩
     let s := opState Pixel.start
     p.rst = false ∧ p.softReset = false ∧ s.itCount = 0 ∧ p.inValid = false) ∧
    (let p : PortsIn := ⟨false, false, true, 0x71, true⟩
     p.rst = false ∧ p.softReset = false ∧ abortedState.itCount = 0 ∧ p.inValid = true ∧ abortedState.phase = .aborted) := by decide

/-- A state for each kind of result, with the payload at an end of its range. -/
theorem witness_OutputPortsShowState :
    (∀ e ∈ ([.needMore 7, .pixels ⟨62, Pixel.start⟩, .imageWidthParsed 0xFFFFFFFF, .imageHeightParsed 0, .imageChannelParsed,
      .imageColorspaceParsed, .finished] : List Event),
      ({ State.reset with result := some (.event e) } : State).result = some (.event e)) ∧
    (∀ e ∈ ([.badMagic (3 : Fin 4).val 0x46, .badChannels 5, .badColorspace 255, .unknownTag 0x7F, .byteCountOverrun 7] : List Err),
      ({ State.reset with result := some (.error e) } : State).result = some (.error e)) ∧ 7 < 2 ^ 32 := by decide

end Sys2Proof.Tests
end

section
/-! Scope rules: the iterator shares nothing with the decode agent (R10), and a run delivers exactly the pixels counted (R12, R159). -/

namespace Sys2Proof.Machine

/-! ### The decoder reads no iterator pixel (R10) -/

theorem finishedCheck_withItPx (s : State) (p : Pixel) :
    finishedCheck { s with itPx := p } = { finishedCheck s with itPx := p } := by
  rcases finishedCheck_cases s with ⟨hp, hc, h⟩ | ⟨hn, h⟩
  · rw [h, finishedCheck_fires (s := { s with itPx := p }) hp hc]; rfl
  · rw [h]
    by_cases hp : s.phase = .parsingOp
    · exact finishedCheck_owing (s := { s with itPx := p }) (hn hp)
    · exact finishedCheck_other (s := { s with itPx := p }) hp

/-- What a byte does is the same for every pixel an empty iterator last held: a byte that completes an opcode overwrites that pixel,
every other byte leaves it and the empty iterator as they are. -/
theorem byteEffect_withItPx {b : Byte} {s t : State} (h : ByteEffect b s t) (hi : s.itCount = 0) (p : Pixel) :
    ∃ q, ByteEffect b { s with itPx := p } { t with itPx := q } ∧ (t.itCount ≠ 0 → q = t.itPx) := by
  cases h with
  | magicOk c hh hc hb => exact ⟨p, .magicOk (s := { s with itPx := p }) c hh hc hb, fun h => absurd hi h⟩
  | magicBad c hh hc hb => exact ⟨p, .magicBad c hh hc hb, fun h => absurd hi h⟩
  | gathered i hl hp hc => exact ⟨p, .gathered i hl hp hc, fun h => absurd hi h⟩
  | width w hp hc hw => exact ⟨p, .width w hp hc hw, fun h => absurd hi h⟩
  | height w hp hc hw => exact ⟨p, .height w hp hc hw, fun h => absurd hi h⟩
  | channelsOk hp hc hb => exact ⟨p, .channelsOk hp hc hb, fun h => absurd hi h⟩
  | channelsBad hp hc hb => exact ⟨p, .channelsBad hp hc hb, fun h => absurd hi h⟩
  | colorspaceBad hp hc hb => exact ⟨p, .colorspaceBad hp hc hb, fun h => absurd hi h⟩
  | illegal hp hb hl => exact ⟨p, .illegal hp hb hl, fun h => absurd hi h⟩
  | colorspaceOk hp hc hb =>
    refine ⟨p, ?_, fun h => absurd hi (by simpa using h)⟩
    rw [← finishedCheck_withItPx]
    exact .colorspaceOk hp hc hb
  | tag hp hb hl =>
    refine ⟨p, ?_, fun h => absurd hi (by simpa [gatherTag] using h)⟩
    rw [← finishedCheck_withItPx]
    exact .tag hp hb hl
  | operand hp hb hl =>
    refine ⟨p, ?_, fun h => absurd hi (by simpa [gatherOperand] using h)⟩
    rw [← finishedCheck_withItPx]
    exact .operand hp hb hl
  | complete i p' m k hp hd hr => exact ⟨_, .complete i p' m k hp hd hr, fun _ => rfl⟩

/-- Settles O42, by cases on the phase: a byte taken has the same effect whatever the iterator's pixel, in Finished it has none, and
in Aborted there is no step. -/
theorem feedIgnoresIteratorPixel : Obligations.FeedIgnoresIteratorPixel := by
  intro s t b bs ops p hf hst
  have ⟨_, _, hempty⟩ := hf
  have hf' : State.feeds { s with itPx := p } b bs ops := hf
  rcases takes_or s with ht | hp | hp
  · obtain ⟨q, he, hq⟩ := byteEffect_withItPx (feeds_inv hf ht hst) hempty p
    exact ⟨_, step_of_effect hf' ht he, rfl, hq⟩
  · rw [step_feeds hf, feed_finished (s := s.taken bs ops) hp] at hst
    cases hst
    exact ⟨_, by rw [step_feeds hf', feed_finished (s := State.taken { s with itPx := p } bs ops) hp], rfl,
      fun h => absurd hempty h⟩
  · rw [step_feeds hf, feed_aborted (s := s.taken bs ops) hp] at hst
    cases hst

/-! ### Runs and invariants -/

/-- A run of one step and more, taken apart. -/
theorem runOut_succ_inv {n : Nat} {s t : State} {out : List Pixel} (h : runOut (n + 1) s = some (t, out)) :
    ∃ u out', step s = .next u ∧ runOut n u = some (t, out') ∧ out = u.delivered ++ out' := by
  cases hs : step s with
  | next u =>
    rw [runOut_succ n hs, Option.map_eq_some_iff] at h
    obtain ⟨⟨t', out'⟩, hr, he⟩ := h
    cases he
    exact ⟨u, out', rfl, hr, rfl⟩
  | fault r => cases r
  | refused r => simp [runOut, hs] at h

/-- What every step keeps, of the state and of the pixels delivered up to it, every run keeps. -/
theorem runOut_keeps {P : List Pixel → State → Prop}
    (hstep : ∀ out s t, P out s → step s = .next t → P (out ++ t.delivered) t)
    {n : Nat} {s t : State} {earlier out : List Pixel} (hP : P earlier s) (h : runOut n s = some (t, out)) : P (earlier ++ out) t := by
  induction n generalizing s earlier out with
  | zero => cases h; simpa using hP
  | succ n ih =>
    obtain ⟨u, out', hs, hr, rfl⟩ := runOut_succ_inv h
    rw [← List.append_assoc]
    exact ih (hstep _ _ _ hP hs) hr

/-- A byte leaves the host's script as it is. -/
theorem host_of_effect {b : Byte} {s t : State} (h : ByteEffect b s t) : t.host = s.host := by
  cases h <;> simp [gatherTag, gatherOperand]

/-- A step drops at most the first operation of the script. -/
theorem host_suffix_of_step {s t : State} (h : step s = .next t) : t.host <:+ s.host := by
  have tail {op : HostOp} {ops : List HostOp} (hh : s.host = op :: ops) : ops <:+ s.host := hh ▸ List.suffix_cons op ops
  cases step_inv h with
  | idle _ => exact List.suffix_rfl
  | reset ops hh => exact tail hh
  | powerOn ops hh => exact tail hh
  | empty ops hh _ => exact tail hh
  | yielded ops hh _ => exact tail hh
  | held ops hh _ => exact tail hh
  | noByte ops hh _ => exact tail hh
  | finished b bs ops hf _ => exact tail hf.1
  | byte b bs ops _ hf _ he => rw [host_of_effect he]; exact tail hf.1

theorem noReset_of_step {s t : State} (hn : NoReset s.host) (h : step s = .next t) : NoReset t.host :=
  fun op hop => hn op ((host_suffix_of_step h).subset hop)

theorem noReset_head {ops l : List HostOp} {op : HostOp} (hn : NoReset l) (hl : l = op :: ops) : op = .feed ∨ op = .next :=
  hn op (by simp [hl])

/-! ### The account of the pixels (R12, R140, R159) -/

/-- With `d` pixels delivered since the fresh state, these and the pixels the iterator holds are the pixels counted; and the count
stands to the target as the phase says, which is why counting on never wraps and why the run ends exactly at the target. Of Aborted
nothing is said (R176). -/
structure State.Accounted (d : Nat) (s : State) : Prop where
  balance : s.phase ≠ .aborted → d + s.itCount.toNat = s.pxCount.toNat
  headerZero : s.inHeader → s.pxCount = 0
  opOwes : s.phase = .parsingOp → s.pxCount.toNat < s.pxTarget.toNat
  finishedExact : s.phase = .finished → s.pxCount = s.pxTarget

theorem accounted_fresh {s : State} (hinv : s.Inv) (hp : s.phase = .notStarted) (hi : s.itCount = 0) : s.Accounted 0 where
  balance _ := by rw [(hinv.headerFresh (.inl hp)).1, hi]; rfl
  headerZero hh := (hinv.headerFresh hh).1
  opOwes := hinv.opOwes
  finishedExact := hinv.finishedExact

theorem accounted_aborted {d : Nat} {s : State} (h : s.phase = .aborted) : s.Accounted d where
  balance hn := absurd h hn
  headerZero hh := by simp [State.inHeader, h] at hh
  opOwes hp := by simp [h] at hp
  finishedExact hp := by simp [h] at hp

/-- The account is about the phase, the count and the target, and the sum of delivered and held pixels. -/
theorem accounted_of_same {d d' : Nat} {s t : State} (hs : s.Accounted d) (hp : t.phase = s.phase) (hc : t.pxCount = s.pxCount)
    (ht : t.pxTarget = s.pxTarget) (hd : d' + t.itCount.toNat = d + s.itCount.toNat) : t.Accounted d' where
  balance := by rw [hp, hd, hc]; exact hs.balance
  headerZero := by rw [State.inHeader, hp, hc]; exact hs.headerZero
  opOwes := by rw [hp, hc, ht]; exact hs.opOwes
  finishedExact := by rw [hp, hc, ht]; exact hs.finishedExact

/-- A header item counts nothing, whatever it makes of the target. -/
theorem accounted_header {d : Nat} {s t : State} (hs : s.Accounted d) (hh : s.inHeader) (hp : t.phase = .parsingHeader)
    (hc : t.pxCount = s.pxCount) (hi : t.itCount = s.itCount) : t.Accounted d where
  balance _ := by rw [hi, hc]; exact hs.balance (by rcases hh with h | h <;> simp [h])
  headerZero _ := by rw [hc]; exact hs.headerZero hh
  opOwes h := by simp [hp] at h
  finishedExact h := by simp [hp] at h

/-- In the opcode stream a count not past the target is enough: the Finished check tells the two phases apart (R141). -/
theorem accounted_finishedCheck {d : Nat} {s : State} (hp : s.phase = .parsingOp) (hle : s.pxCount.toNat ≤ s.pxTarget.toNat)
    (hd : d + s.itCount.toNat = s.pxCount.toNat) : (finishedCheck s).Accounted d := by
  rcases finishedCheck_cases s with ⟨-, hc, h⟩ | ⟨hn, h⟩ <;> rw [h]
  · exact ⟨fun _ => hd, by simp [State.inHeader], by simp, fun _ => hc⟩
  · have hne : s.pxCount.toNat ≠ s.pxTarget.toNat := fun e => hn hp (BitVec.eq_of_toNat_eq e)
    exact ⟨fun _ => hd, by simp [State.inHeader, hp], fun _ => by omega, by simp [hp]⟩

/-- A byte is taken with the iterator empty, and every pixel it counts is loaded into the iterator (R138, R140, R156). -/
theorem accounted_byteEffect {b : Byte} {d : Nat} {s t : State} (h : ByteEffect b s t) (hi : s.itCount = 0) (hs : s.Accounted d) :
    t.Accounted d := by
  cases h with
  | magicOk c hh hc hb => exact accounted_header hs hh rfl rfl rfl
  | gathered i hl hp hc => exact accounted_header hs (.inr hp) hp rfl rfl
  | width w hp hc hw => exact accounted_header hs (.inr hp) hp rfl rfl
  | height w hp hc hw => exact accounted_header hs (.inr hp) hp rfl rfl
  | channelsOk hp hc hb => exact accounted_header hs (.inr hp) hp rfl rfl
  | magicBad | channelsBad | colorspaceBad | illegal => exact accounted_aborted rfl
  | colorspaceOk hp hc hb =>
    have h0 : s.pxCount = 0 := hs.headerZero (.inr hp)
    exact accounted_finishedCheck rfl (by simp [h0]) (hs.balance (by simp [hp]))
  | tag hp hb hl => exact accounted_finishedCheck hp (hs.opOwes hp).le (hs.balance (by simp [hp]))
  | operand hp hb hl => exact accounted_finishedCheck hp (hs.opOwes hp).le (hs.balance (by simp [hp]))
  | complete i p m k hp hd hr =>
    obtain ⟨-, hk, hle⟩ := complete_bounds (hs.opOwes hp) hd hr
    have hcount := emit_count hle
    have hbal := hs.balance (by simp [hp])
    have hempty : s.itCount.toNat = 0 := by rw [hi]; rfl
    refine accounted_finishedCheck hp ?_ ?_
    · simpa only [emit_pxCount, emit_pxTarget, hcount] using hle
    · simp only [emit_itCount, emit_pxCount, hcount, BitVec.toNat_ofNat]
      omega

/-- Every step that is no reset keeps the account: `NEXT()` moves one pixel from the iterator to those delivered (R152, R159). -/
theorem accounted_step {d : Nat} {s t : State} (hn : NoReset s.host) (hs : s.Accounted d) (h : step s = .next t) :
    t.Accounted (d + t.delivered.length) := by
  cases step_inv h with
  | reset ops hh => simpa using noReset_head hn hh
  | powerOn ops hh => simpa using noReset_head hn hh
  | idle | empty | held | noByte | finished => exact accounted_of_same hs rfl rfl rfl rfl
  | yielded ops hh hi =>
    refine accounted_of_same hs rfl rfl rfl ?_
    have hpos : 1 ≤ s.itCount.toNat := Nat.one_le_iff_ne_zero.2 fun e => hi (BitVec.eq_of_toNat_eq e)
    have hdown : (s.itCount - 1).toNat = s.itCount.toNat - 1 := BitVec.toNat_sub_of_le (by simpa [BitVec.le_def] using hpos)
    simp only [State.delivered, List.length_singleton, hdown]
    omega
  | byte b bs ops _ hf _ he =>
    obtain ⟨-, -, hempty⟩ := hf
    rw [delivered_of_effect he]
    exact accounted_byteEffect he hempty (accounted_of_same hs rfl rfl rfl rfl)

/-- Settles O56: every step without reset keeps the account of the pixels, so every run does; at the end the count is the target and
the iterator is empty. -/
theorem deliveredPixelsAreTheTarget : Obligations.DeliveredPixelsAreTheTarget := by
  intro s t n out hinv hp hi hnr hrun hab
  obtain ⟨-, hacc⟩ : NoReset t.host ∧ t.Accounted ([] ++ out).length :=
    runOut_keeps (P := fun out s => NoReset s.host ∧ s.Accounted out.length) (earlier := [])
      (fun out s t ⟨hnr, hs⟩ hst => ⟨noReset_of_step hnr hst, by
        rw [List.length_append]; exact accounted_step hnr hs hst⟩)
      ⟨hnr, accounted_fresh hinv hp hi⟩ hrun
  have hbal : out.length + t.itCount.toNat = t.pxCount.toNat := hacc.balance hab
  refine ⟨hbal, fun ⟨hfin, hempty⟩ => ?_⟩
  rw [← hacc.finishedExact hfin, ← hbal, hempty]
  rfl

end Sys2Proof.Machine
end

section
/-! The invariants of reachable states (R34, R35): the power-on state meets both, every step keeps both, so every run meets them. -/

namespace Sys2Proof.Machine

/-! ### The base case: a reset decoder (R190, R191) -/

/-- Reset leaves the iterator, so its bound is the one thing the state before has to bring. -/
theorem inv_resetDecoder {s : State} (hi : s.itCount.toNat ≤ 62) : (resetDecoder s).Inv := by
  constructor <;> simp [State.inHeader, Cache.zeros, hi]

theorem cacheInv_resetDecoder (s : State) : (resetDecoder s).CacheInv where
  lastResident _ := .inr ⟨rfl, rfl⟩
  slotOwn _ i := .inl (cacheRead_zeros i)

/-- Power-on is the reset of a state whose iterator is already empty (R191). -/
theorem powerOn_eq_resetDecoder (s : State) : powerOn s = resetDecoder { s with itCount := 0, itPx := Pixel.start } := rfl

theorem inv_powerOn (s : State) : (powerOn s).Inv := by
  rw [powerOn_eq_resetDecoder]
  exact inv_resetDecoder (by simp)

theorem cacheInv_powerOn (s : State) : (powerOn s).CacheInv := by
  rw [powerOn_eq_resetDecoder]
  exact cacheInv_resetDecoder _

/-- Settles O3: the start state is its own power-on state, and power-on gives both invariants. -/
theorem resetStateMeetsInvariants : Obligations.ResetStateMeetsInvariants :=
  fun bytes ops => ⟨inv_powerOn { State.start bytes with host := ops }, cacheInv_powerOn { State.start bytes with host := ops }⟩

/-! ### The machine invariant, byte by byte (R34) -/

/-- In Aborted the invariant speaks of the iterator alone (R176). -/
theorem inv_aborted {s : State} (hp : s.phase = .aborted) (hi : s.itCount = 0) : s.Inv := by
  constructor <;> simp [State.inHeader, hp, hi]

/-- A header item moves on to byte `c` with a target fit for that place (R25, R30); the scratch buffer is free. -/
theorem inv_headerProgress {s : State} (hs : s.Inv) (hp : s.phase = .parsingHeader) {e : Event} {c : Fin 14} {m : Scratch}
    {target : Count} (hzero : c.val < 8 → target = 0) (hwidth : c.val < 12 → target.toNat ≤ 2 ^ 32 - 1)
    (hbound : target.toNat ≤ (2 ^ 32 - 1) ^ 2) :
    (returnEvent e { s with hdrCnt := c, scratch := m, pxTarget := target }).Inv :=
  { hs with
    opOwes := by simp [hp]
    finishedExact := by simp [hp]
    targetBound := fun _ => hbound
    headerTargetZero := fun _ => hzero
    headerTargetWidth := fun _ => hwidth
    notStartedAtZero := by simp [hp]
    headerOver := by simp [hp] }

/-- The first magic byte enters ParsingHeader (R121); no other register has to move for the invariant. -/
theorem inv_enterHeader {s : State} (hs : s.Inv) (hh : s.inHeader) : State.Inv { s with phase := .parsingHeader } := by
  have hna : s.phase ≠ .aborted := by rcases hh with h | h <;> simp [h]
  have hno : s.phase ≠ .parsingOp := by rcases hh with h | h <;> simp [h]
  exact { hs with
    opOwes := by simp
    finishedExact := by simp
    opLegal := by simp
    idleCanonical := fun _ => hs.idleCanonical hna
    busyOnlyInOp := fun _ hb => absurd (hs.busyOnlyInOp hna hb) hno
    headerFresh := fun _ => hs.headerFresh hh
    targetBound := fun _ => hs.targetBound hna
    headerTargetZero := fun _ => hs.headerTargetZero hh
    headerTargetWidth := fun _ => hs.headerTargetWidth hh
    notStartedAtZero := by simp
    headerOver := by simp
    abortedEmpty := by simp }

/-- Where the invariant holds, `hdr_cnt` is the header position in NotStarted too (R25). -/
theorem headerPos_eq_hdrCnt {s : State} (hs : s.Inv) (hh : s.inHeader) : headerPos s = s.hdrCnt.val := by
  rcases hh with hp | hp
  · rw [headerPos_notStarted hp, hs.notStartedAtZero hp]; rfl
  · exact headerPos_header hp

/-- A 32-bit width is a target in range (R30). -/
theorem setWidth_target_le (w : BitVec 32) : (w.setWidth 64).toNat ≤ 2 ^ 32 - 1 := by
  rw [BitVec.toNat_setWidth]
  omega

/-- The product of two 32-bit sizes is a target in range (R30). -/
theorem mul_target_le {x y : Count} (hx : x.toNat ≤ 2 ^ 32 - 1) (hy : y.toNat ≤ 2 ^ 32 - 1) :
    (x * y).toNat ≤ (2 ^ 32 - 1) ^ 2 := by
  rw [BitVec.toNat_mul, pow_two]
  exact (Nat.mod_le _ _).trans (Nat.mul_le_mul hx hy)

/-- The legal encodings in flight are those with an operand byte still to come (R27, R71). -/
theorem legalInFlight_iff (t : Byte) (n : BitVec 3) : LegalInFlight t n ↔ n.toNat < oplen (classify t) := by
  have hrgb : t = 0xFE ↔ t.toNat = 254 := byte_eq_iff t 254 (by omega)
  have hrgba : t = 0xFF ↔ t.toNat = 255 := byte_eq_iff t 255 (by omega)
  have hn : n = 0 ↔ n.toNat = 0 := BitVec.toNat_inj.symm
  rw [LegalInFlight, hrgb, hrgba, hn, classify_eq]
  split_ifs <;> simp only [oplen] <;> omega

/-- What a byte of the opcode stream leaves before the Finished check: the invariant in ParsingOp, with the target perhaps reached. -/
structure State.OpInv (s : State) : Prop where
  phase : s.phase = .parsingOp
  countLe : s.pxCount.toNat ≤ s.pxTarget.toNat
  legal : s.opBusy = true → LegalInFlight s.opTag s.opNread
  idle : s.opBusy = false → s.opTag = 0 ∧ s.opNread = 0
  itBound : s.itCount.toNat ≤ 62
  targetBound : s.pxTarget.toNat ≤ (2 ^ 32 - 1) ^ 2
  headerOver : s.hdrCnt = 13

theorem State.Inv.opInv {s : State} (hs : s.Inv) (hp : s.phase = .parsingOp) : s.OpInv where
  phase := hp
  countLe := (hs.opOwes hp).le
  legal := hs.opLegal hp
  idle := hs.idleCanonical (by simp [hp])
  itBound := hs.itBound
  targetBound := hs.targetBound (by simp [hp])
  headerOver := hs.headerOver (.inl hp)

/-- The Finished check turns a reached target into phase Finished, so in ParsingOp a pixel stays owed (R141). -/
theorem State.OpInv.inv_finishedCheck {s : State} (hs : s.OpInv) : (finishedCheck s).Inv := by
  obtain ⟨hp, hle, hlegal, hidle, hit, htarget, hover⟩ := hs
  rcases finishedCheck_cases s with ⟨-, hc, h⟩ | ⟨hn, h⟩ <;> rw [h]
  · constructor <;> simp [State.inHeader, hc, hit, hover]
    exact htarget
  · have hne : s.pxCount.toNat ≠ s.pxTarget.toNat := fun e => hn hp (BitVec.eq_of_toNat_eq e)
    have howes : s.pxCount.toNat < s.pxTarget.toNat := by omega
    exact
      { opOwes := fun _ => howes
        finishedExact := by simp [hp]
        opLegal := fun _ => hlegal
        idleCanonical := fun _ => hidle
        busyOnlyInOp := fun _ _ => hp
        headerFresh := by simp [State.inHeader, hp]
        itBound := hit
        targetBound := fun _ => htarget
        headerTargetZero := by simp [State.inHeader, hp]
        headerTargetWidth := by simp [State.inHeader, hp]
        notStartedAtZero := by simp [hp]
        headerOver := fun _ => hover
        abortedEmpty := by simp [hp] }

/-- Every byte taken with the iterator empty keeps the invariant. -/
theorem inv_byteEffect {b : Byte} {s t : State} (h : ByteEffect b s t) (hi : s.itCount = 0) (hs : s.Inv) : t.Inv := by
  cases h with
  | magicBad | channelsBad | colorspaceBad | illegal => exact inv_aborted rfl hi
  | magicOk c hh hc hb =>
    have hcnt : s.hdrCnt.val < 8 := by rw [← headerPos_eq_hdrCnt hs hh, hc]; omega
    have h0 : s.pxTarget = 0 := hs.headerTargetZero hh hcnt
    exact inv_headerProgress (inv_enterHeader hs hh) rfl (fun _ => h0) (fun _ => by simp [h0]) (by simp [h0])
  | gathered i hl hp hc =>
    have hnext : (hdrNext s.hdrCnt).val = s.hdrCnt.val + 1 := hdrNext_val (by omega)
    exact inv_headerProgress hs hp (fun h => hs.headerTargetZero (.inr hp) (by omega))
      (fun h => hs.headerTargetWidth (.inr hp) (by omega)) (hs.targetBound (by simp [hp]))
  | width w hp hc hw =>
    have hle := setWidth_target_le w
    exact inv_headerProgress hs hp (by simp) (fun _ => hle) (by omega)
  | height h hp hc hw =>
    have hwidth := hs.headerTargetWidth (.inr hp) (by omega)
    exact inv_headerProgress hs hp (by simp) (by simp) (mul_target_le hwidth (setWidth_target_le h))
  | channelsOk hp hc hb => exact inv_headerProgress hs hp (by simp) (by simp) (hs.targetBound (by simp [hp]))
  | colorspaceOk hp hc hb =>
    obtain ⟨h0, -, -⟩ := hs.headerFresh (.inr hp)
    exact State.OpInv.inv_finishedCheck
      { phase := rfl
        countLe := by simp [h0]
        legal := by simp
        idle := fun _ => ⟨rfl, rfl⟩
        itBound := hs.itBound
        targetBound := hs.targetBound (by simp [hp])
        headerOver := Fin.ext hc }
  | tag hp hb hl =>
    exact State.OpInv.inv_finishedCheck
      { hs.opInv hp with
        legal := fun _ => (legalInFlight_iff _ _).2 hl
        idle := by simp }
  | operand hp hb hl =>
    have hlegal : LegalInFlight s.opTag (s.opNread + 1) := by
      rw [legalInFlight_iff, BitVec.toNat_add]
      exact (Nat.mod_le _ _).trans_lt hl
    exact State.OpInv.inv_finishedCheck
      { hs.opInv hp with
        legal := fun _ => hlegal
        idle := by simp [hb] }
  | complete i p m k hp hd hr =>
    obtain ⟨-, hk, hle⟩ := complete_bounds (hs.opOwes hp) hd hr
    exact State.OpInv.inv_finishedCheck
      { hs.opInv hp with
        countLe := by simpa only [emit_pxCount, emit_pxTarget, emit_count hle] using hle
        legal := by simp
        idle := fun _ => ⟨rfl, rfl⟩
        itBound := by simp only [emit_itCount, BitVec.toNat_ofNat]; omega }

/-- Settles O43, by the inversion of a step: reset is the base case, `NEXT()` lowers the iterator's count, and a byte is
`inv_byteEffect`; the other steps change no register. -/
theorem stepKeepsInv : Obligations.StepKeepsInv := by
  intro s t hs h
  cases step_inv h with
  | idle | empty | held | noByte | finished => exact { hs with }
  | reset ops hh => exact inv_resetDecoder hs.itBound
  | powerOn ops hh => exact inv_powerOn _
  | yielded ops hh hi =>
    have hdown : (s.itCount - 1).toNat ≤ 62 := by
      have hbound := hs.itBound
      have hpos : s.itCount.toNat ≠ 0 := fun e => hi (BitVec.eq_of_toNat_eq e)
      rw [BitVec.toNat_sub]; simp; omega
    exact { hs with
      itBound := hdown
      abortedEmpty := fun hp => absurd (hs.abortedEmpty hp) hi }
  | byte b bs ops _ hf _ he =>
    obtain ⟨-, -, hempty⟩ := hf
    exact inv_byteEffect he hempty { hs with }

/-! ### The cache invariant (R35, R58, R101) -/

theorem cacheInv_aborted {s : State} (hp : s.phase = .aborted) : s.CacheInv where
  lastResident hn := absurd hp hn
  slotOwn hn := absurd hp hn

/-- The cache invariant is about the last pixel and the cache. -/
theorem cacheInv_of_same {s t : State} (hs : s.CacheInv) (hn : s.phase ≠ .aborted) (hpx : t.px = s.px) (hc : t.cache = s.cache) :
    t.CacheInv where
  lastResident _ := by rw [hpx, hc]; exact hs.lastResident hn
  slotOwn _ := by rw [hc]; exact hs.slotOwn hn

/-- The write of R58 puts the new last pixel in its slot and takes no other slot from its owner. -/
theorem cacheInv_of_put {s t : State} (hs : s.CacheInv) (hn : s.phase ≠ .aborted) (hc : t.cache = cachePut s.cache t.px) :
    t.CacheInv where
  lastResident _ := by simp [hc]
  slotOwn _ i := by
    rw [hc, cacheRead_cachePut]
    by_cases hi : i = slot t.px
    · rw [if_pos hi]; exact .inr hi.symm
    · rw [if_neg hi]; exact hs.slotOwn hn i

/-- An opcode writes its pixel to the cache, or it is RUN and leaves pixel and cache alone (R100, R101, R104). -/
theorem opcodeResult_cache {i : Instr} {s : State} {p : Pixel} {m : Cache} {k : Nat} (h : opcodeResult i s = some (p, m, k)) :
    m = cachePut s.cache p ∨ (p = s.px ∧ m = s.cache) := by
  cases i <;> simp only [opcodeResult, Option.some.injEq, Prod.mk.injEq, reduceCtorEq] at h <;> obtain ⟨rfl, rfl, -⟩ := h
  case run n => exact .inr ⟨rfl, rfl⟩
  all_goals exact .inl rfl

/-- Every byte taken keeps the cache invariant: only a completed opcode touches the last pixel and the cache. -/
theorem cacheInv_byteEffect {b : Byte} {s t : State} (h : ByteEffect b s t) (hn : s.phase ≠ .aborted) (hs : s.CacheInv) :
    t.CacheInv := by
  cases h with
  | magicBad | channelsBad | colorspaceBad | illegal => exact cacheInv_aborted rfl
  | magicOk | gathered | width | height | channelsOk => exact cacheInv_of_same hs hn rfl rfl
  | colorspaceOk | tag | operand => exact cacheInv_of_same hs hn (by simp) (by simp)
  | complete i p m k hp hd hr =>
    rcases opcodeResult_cache hr with hput | ⟨hpx, hcache⟩
    · exact cacheInv_of_put hs hn (by simpa using hput)
    · exact cacheInv_of_same hs hn (by simpa using hpx) (by simpa using hcache)

/-- Settles O45, by the inversion of a step: a reset gives it anew, and a byte is `cacheInv_byteEffect`; no other step touches the last
pixel or the cache. -/
theorem stepKeepsCacheInv : Obligations.StepKeepsCacheInv := by
  intro s t _ hc h
  cases step_inv h with
  | idle | empty | yielded | held | noByte | finished => exact { hc with }
  | reset ops hh => exact cacheInv_resetDecoder _
  | powerOn ops hh => exact cacheInv_powerOn _
  | byte b bs ops _ _ ht he =>
    have hn : s.phase ≠ .aborted := by rcases ht with h | h | h <;> simp [h]
    exact cacheInv_byteEffect he hn { hc with }

/-! ### Runs -/

/-- Settles O44: both invariants hold at power-on and every step keeps them, so every run does. -/
theorem everyRunMeetsInv : Obligations.EveryRunMeetsInv := by
  intro bytes ops n t out hrun
  exact runOut_keeps (P := fun _ s => s.Inv ∧ s.CacheInv) (earlier := [])
    (fun _ s t ⟨hs, hc⟩ hst => ⟨stepKeepsInv s t hs hst, stepKeepsCacheInv s t hs hc hst⟩)
    (resetStateMeetsInvariants bytes ops) hrun

end Sys2Proof.Machine
end

section
/-! The pixel cache (R54 to R58): the slot of a pixel as an integer sum, and what a second write to one slot leaves of the first. -/

namespace Sys2Proof.Machine

/-- Settles O4, from the values of `hash` and `slot` as integer sums. -/
theorem hashAndSlotAreIntegerSums : Obligations.HashAndSlotAreIntegerSums :=
  fun p => ⟨hash_toNat p, slot_toNat p⟩

/-- A slot number is a pixel's when the integer sum says so (R55). -/
theorem eq_slot_iff (k : BitVec 6) (p : Pixel) : k = slot p ↔ k.toNat = hashSum p % 64 := by
  rw [← BitVec.toNat_inj, slot_toNat]

/-- Of two writes to one slot the first leaves no trace (R57). -/
theorem cachePut_cachePut_of_slot_eq (m : Cache) {p q : Pixel} (h : slot q = slot p) :
    cachePut (cachePut m p) q = cachePut m q := by
  apply cache_ext
  intro j
  simp only [cacheRead_cachePut, h]
  by_cases hj : j = slot p
  · rw [if_pos hj, if_pos hj]
  · rw [if_neg hj, if_neg hj, if_neg hj]

/-- RGBA with the channels of `p` runs in every state and writes `p` itself to its slot (R58, R106). -/
theorem exec_rgba_channels_cache (p : Pixel) (s : State) :
    ∃ t, exec (.rgba p.r p.g p.b p.a) s = .next t ∧ t.cache = cachePut s.cache p :=
  ⟨_, exec_opcode (i := .rgba p.r p.g p.b p.a) rfl, emit_cache _ _⟩

/-- INDEX of the slot of `q` right after `q` was written completes with `q` (R57, R101). -/
theorem exec_index_slot_of_put {s : State} {m : Cache} {q : Pixel} (hc : s.cache = cachePut m q) :
    ∃ t, exec (.index (slot q)) s = .next t ∧ t.px = q := by
  have hread : cacheRead s.cache (slot q) = q := by rw [hc, cacheRead_cachePut, if_pos rfl]
  exact ⟨_, exec_opcode (i := .index (slot q)) rfl, by rw [emit_px, hread]⟩

/-- Settles O5: each RGBA writes its pixel to the one slot, INDEX reads back the second write, and by `cachePut_cachePut_of_slot_eq` the
cache is the same without the first. -/
theorem cacheLastWriterWins : Obligations.CacheLastWriterWins := by
  intro s p q k hk hpq
  have hslot : slot q = slot p := (eq_slot_iff _ p).2 (by rw [slot_toNat, hpq])
  obtain rfl : k = slot q := (eq_slot_iff k q).2 (by rw [hk, hpq])
  obtain ⟨t, ht, htc⟩ := exec_rgba_channels_cache p s
  obtain ⟨u, hu, huc⟩ := exec_rgba_channels_cache q t
  obtain ⟨w, hw, hwc⟩ := exec_rgba_channels_cache q s
  obtain ⟨v, hv, hpx⟩ := exec_index_slot_of_put huc
  have hcache : u.cache = w.cache := by rw [huc, htc, cachePut_cachePut_of_slot_eq _ hslot, hwc]
  exact ⟨t, u, v, w, ht, hu, hv, hpx, hw, fun j => by rw [hcache]⟩

end Sys2Proof.Machine
end

section
/-! The encoding (spec/30_encoding.md): the bytes of the layouts by value, decoding and encoding as inverses of each other, the
assembler's lines and the words of the opcode table. -/

namespace Sys2Proof

/-! ### The layouts by value -/

/-- The concatenation of two fields is one number, the first field the more significant (R13). -/
theorem append_toNat {m n : Nat} (x : BitVec m) (y : BitVec n) : (x ++ y).toNat = x.toNat * 2 ^ n + y.toNat := by
  rw [BitVec.toNat_append, ← Nat.shiftLeft_add_eq_or_of_lt y.isLt, Nat.shiftLeft_eq]

/-- A tag with two opcode bits and a six-bit argument (R76, R78, R79). -/
theorem tag_toNat (c : BitVec 2) (x : BitVec 6) : (c ++ x : BitVec 8).toNat = c.toNat * 64 + x.toNat := append_toNat c x

/-- The tag of DIFF with its three deltas (R77). -/
theorem diffTag_toNat (dr dg db : BitVec 2) :
    (1#2 ++ dr ++ dg ++ db : BitVec 8).toNat = 64 + dr.toNat * 16 + dg.toNat * 4 + db.toNat := by
  have h := append_toNat (1#2 ++ dr ++ dg) db
  rw [append_toNat (1#2 ++ dr), append_toNat 1#2, show (1#2).toNat = 1 from rfl] at h
  omega

/-- The operand byte of LUMA with its two deltas (R78). -/
theorem lumaOperand_toNat (x y : BitVec 4) : (x ++ y : BitVec 8).toNat = x.toNat * 16 + y.toNat := append_toNat x y

/-- A field of a byte by the byte's value (R13). -/
theorem field_eq_ofNat (t : Byte) (lo w : Nat) : field t lo w = BitVec.ofNat w (t.toNat / 2 ^ lo) :=
  BitVec.eq_of_toNat_eq (by rw [field_toNat, BitVec.toNat_ofNat])

/-! ### Reading back the fields of a layout -/

theorem field_tag_arg (c : BitVec 2) (x : BitVec 6) : field (c ++ x : BitVec 8) 0 6 = x := BitVec.extractLsb'_append_eq_right

theorem field_lumaOperand (x y : BitVec 4) :
    field (x ++ y : BitVec 8) 4 4 = x ∧ field (x ++ y : BitVec 8) 0 4 = y :=
  ⟨BitVec.extractLsb'_append_eq_left, BitVec.extractLsb'_append_eq_right⟩

theorem field_diffTag (dr dg db : BitVec 2) :
    field (1#2 ++ dr ++ dg ++ db : BitVec 8) 4 2 = dr ∧ field (1#2 ++ dr ++ dg ++ db : BitVec 8) 2 2 = dg ∧
    field (1#2 ++ dr ++ dg ++ db : BitVec 8) 0 2 = db := by
  refine ⟨?_, ?_, ?_⟩ <;> apply BitVec.eq_of_toNat_eq <;> rw [field_toNat, diffTag_toNat] <;> omega

/-! ### Making a byte again of its fields -/

theorem tag_append_field {t : Byte} {c : BitVec 2} (h : t.toNat / 64 = c.toNat) : (c ++ field t 0 6 : BitVec 8) = t := by
  apply BitVec.eq_of_toNat_eq
  rw [tag_toNat, field_toNat]
  omega

theorem lumaOperand_append_fields (n : Byte) : (field n 4 4 ++ field n 0 4 : BitVec 8) = n := by
  apply BitVec.eq_of_toNat_eq
  rw [lumaOperand_toNat, field_toNat, field_toNat]
  omega

theorem diffTag_append_fields {t : Byte} (h : t.toNat / 64 = 1) :
    (1#2 ++ field t 4 2 ++ field t 2 2 ++ field t 0 2 : BitVec 8) = t := by
  apply BitVec.eq_of_toNat_eq
  rw [diffTag_toNat, field_toNat, field_toNat, field_toNat]
  omega

/-! ### The two inverses -/

/-- The per-instruction facts of the tags, in one. -/
theorem tagClassifies (i : Instr) : Laws.TagClassifies.Statement i := by
  cases i with
  | rgb r g b => exact Laws.TagClassifies.rgb r g b
  | rgba r g b a => exact Laws.TagClassifies.rgba r g b a
  | index k => exact Laws.TagClassifies.index k
  | diff dr dg db => exact Laws.TagClassifies.diff dr dg db
  | luma dg drdg dbdg => exact Laws.TagClassifies.luma dg drdg dbdg
  | run n => exact Laws.TagClassifies.run n
  | hdrMagic c b => exact Laws.TagClassifies.hdrMagic c b
  | hdrWidth w => exact Laws.TagClassifies.hdrWidth w
  | hdrHeight h => exact Laws.TagClassifies.hdrHeight h
  | hdrChannels b => exact Laws.TagClassifies.hdrChannels b
  | hdrColorspace b => exact Laws.TagClassifies.hdrColorspace b

/-- A well-formed opcode begins with a tag that tells its length (R71, R73). -/
theorem encode_opcode {i : Instr} (hw : i.wf = true) (hi : i.item = .opcode) :
    ∃ t ops, encode i = t :: ops ∧ ops.length = oplen (classify t) := by
  obtain ⟨o, ho⟩ : ∃ o, Laws.TagClassifies.opcodeOf i = some o := by
    cases i with
    | rgb | rgba | index | diff | luma | run => exact ⟨_, rfl⟩
    | hdrMagic | hdrWidth | hdrHeight | hdrChannels | hdrColorspace => cases hi
  obtain ⟨t, ops, he, hc, hl⟩ := (tagClassifies i hw).1 o ho
  exact ⟨t, ops, he, by rw [hc, hl]⟩

theorem decodeOpcode_encode_rgb (r g b : Byte) : decodeOpcode (encode (.rgb r g b)) = .done (.rgb r g b) :=
  decodeOpcode_rgb ((classify_rgb_iff _).2 rfl) r g b

theorem decodeOpcode_encode_rgba (r g b a : Byte) : decodeOpcode (encode (.rgba r g b a)) = .done (.rgba r g b a) :=
  decodeOpcode_rgba ((classify_rgba_iff _).2 rfl) r g b a

theorem decodeOpcode_encode_index (k : BitVec 6) : decodeOpcode (encode (.index k)) = .done (.index k) := by
  obtain ⟨_, _, he, hc, -⟩ := (tagClassifies (.index k) rfl).1 .index rfl
  cases he
  rw [encode, decodeOpcode_index hc, field_tag_arg]

theorem decodeOpcode_encode_diff (dr dg db : BitVec 2) :
    decodeOpcode (encode (.diff dr dg db)) = .done (.diff dr dg db) := by
  obtain ⟨_, _, he, hc, -⟩ := (tagClassifies (.diff dr dg db) rfl).1 .diff rfl
  cases he
  obtain ⟨hr, hg, hb⟩ := field_diffTag dr dg db
  rw [encode, decodeOpcode_diff hc, hr, hg, hb]

theorem decodeOpcode_encode_luma (dg : BitVec 6) (drdg dbdg : BitVec 4) :
    decodeOpcode (encode (.luma dg drdg dbdg)) = .done (.luma dg drdg dbdg) := by
  obtain ⟨hr, hb⟩ := field_lumaOperand drdg dbdg
  rw [encode, decodeOpcode_luma (Laws.TagClassifies.luma_tag dg), field_tag_arg, hr, hb]

/-- The bound on the stored length keeps RUN's tag off those of RGB and RGBA (R74). -/
theorem decodeOpcode_encode_run {n : BitVec 6} (h : n.toNat ≤ 61) : decodeOpcode (encode (.run n)) = .done (.run n) := by
  obtain ⟨_, _, he, hc, -⟩ := (tagClassifies (.run n) (decide_eq_true h)).1 .run rfl
  cases he
  rw [encode, decodeOpcode_run hc, field_tag_arg]

theorem decodeWord_be32Byte (mk : BitVec 32 → Instr) (w : BitVec 32) :
    decodeWord mk [be32Byte w 0, be32Byte w 1, be32Byte w 2, be32Byte w 3] = .done (mk w) := by
  rw [decodeWord, be32_bytes]

/-- Settles O8, row by row: each layout's fields read back. -/
theorem decodeEncodeRoundTrip : Obligations.DecodeEncodeRoundTrip := by
  intro i hw
  cases i with
  | rgb r g b => exact decodeOpcode_encode_rgb r g b
  | rgba r g b a => exact decodeOpcode_encode_rgba r g b a
  | index k => exact decodeOpcode_encode_index k
  | diff dr dg db => exact decodeOpcode_encode_diff dr dg db
  | luma dg drdg dbdg => exact decodeOpcode_encode_luma dg drdg dbdg
  | run n => exact decodeOpcode_encode_run (of_decide_eq_true hw)
  | hdrMagic c b => exact decodeMagic_take c b
  | hdrWidth w => exact decodeWord_be32Byte .hdrWidth w
  | hdrHeight h => exact decodeWord_be32Byte .hdrHeight h
  | hdrChannels b => rfl
  | hdrColorspace b => rfl

/-- Bytes that are a whole opcode are those the layouts of R76 to R81 give it. -/
theorem encode_of_decodeOpcode {bs : List Byte} {i : Instr} (h : decodeOpcode bs = .done i) : encode i = bs := by
  rcases decodeOpcode_done h with ⟨t, r, g, b, rfl, hc, rfl⟩ | ⟨t, r, g, b, a, rfl, hc, rfl⟩ | ⟨t, rfl, hc, rfl⟩ |
    ⟨t, rfl, hc, rfl⟩ | ⟨t, n, rfl, hc, rfl⟩ | ⟨t, rfl, hc, rfl⟩
  · rw [(classify_rgb_iff t).1 hc]; rfl
  · rw [(classify_rgba_iff t).1 hc]; rfl
  · rw [classify_index_iff] at hc
    rw [encode, tag_append_field (c := 0#2) (show t.toNat / 64 = 0 by omega)]
  · rw [classify_diff_iff] at hc
    rw [encode, diffTag_append_fields (by omega)]
  · rw [classify_luma_iff] at hc
    rw [encode, tag_append_field (c := 2#2) (show t.toNat / 64 = 2 by omega), lumaOperand_append_fields]
  · rw [classify_run_iff] at hc
    rw [encode, tag_append_field (c := 3#2) (show t.toNat / 64 = 3 by omega)]

/-- Only a RUN can fail to be well-formed, and the decoder gives none above 61 (R74). -/
theorem wf_of_decodeOpcode {bs : List Byte} {i : Instr} (h : decodeOpcode bs = .done i) : i.wf = true := by
  cases i with
  | run n => exact decide_eq_true (Machine.decodeOpcode_run_le h)
  | rgb | rgba | index | diff | luma | hdrMagic | hdrWidth | hdrHeight | hdrChannels | hdrColorspace => rfl

theorem be32Bytes_be32 (b0 b1 b2 b3 : Byte) :
    [be32Byte (be32 b0 b1 b2 b3) 0, be32Byte (be32 b0 b1 b2 b3) 1, be32Byte (be32 b0 b1 b2 b3) 2, be32Byte (be32 b0 b1 b2 b3) 3] =
      [b0, b1, b2, b3] := by
  obtain ⟨h0, h1, h2, h3⟩ := be32Byte_be32 b0 b1 b2 b3
  rw [h0, h1, h2, h3]

/-- Settles O9, by cases on the item: what each decoder answers `done` to is the layout of its answer. -/
theorem decodedBytesAreItsEncoding : Obligations.DecodedBytesAreItsEncoding := by
  intro it bs i h
  cases it with
  | magic =>
    obtain ⟨c, b, rfl, rfl⟩ := decodeMagic_done h
    exact ⟨rfl, rfl, rfl⟩
  | width =>
    obtain ⟨b0, b1, b2, b3, rfl, rfl⟩ := decodeWord_done h
    exact ⟨rfl, rfl, be32Bytes_be32 b0 b1 b2 b3⟩
  | height =>
    obtain ⟨b0, b1, b2, b3, rfl, rfl⟩ := decodeWord_done h
    exact ⟨rfl, rfl, be32Bytes_be32 b0 b1 b2 b3⟩
  | channels =>
    obtain ⟨b, rfl, rfl⟩ := decodeByte_done h
    exact ⟨rfl, rfl, rfl⟩
  | colorspace =>
    obtain ⟨b, rfl, rfl⟩ := decodeByte_done h
    exact ⟨rfl, rfl, rfl⟩
  | opcode => exact ⟨wf_of_decodeOpcode h, Machine.decodeOpcode_item h, encode_of_decodeOpcode h⟩

/-- Settles O10: the first byte tells the length, and fewer operand bytes make the decoder ask for the rest. -/
theorem opcodePrefixesAwaitTheRest : Obligations.OpcodePrefixesAwaitTheRest := by
  intro i k hw hi hpos hlt
  obtain ⟨t, ops, he, hl⟩ := encode_opcode hw hi
  obtain ⟨j, rfl⟩ : ∃ j, k = j + 1 := ⟨k - 1, by omega⟩
  rw [he, List.length_cons] at hlt
  have htake : (ops.take j).length = j := List.length_take_of_le (by omega)
  rw [he, List.take_succ_cons, decode, decodeOpcode_short t _ (by omega), htake, List.length_cons, ← hl, Nat.add_sub_add_right]

/-- Settles O6, range by range: each range of tag values is a class of the decoder, and its fields are parts of the value. -/
theorem tagMapIsTotal : Obligations.TagMapIsTotal := by
  intro t
  refine ⟨fun h => ?index, fun h => ?diff, fun h => ?luma, fun h => ?run, fun h => ?rgb, fun h => ?rgba⟩
  case index =>
    rw [decode, decodeOpcode_index ((classify_index_iff t).2 (by omega)), field_eq_ofNat, Nat.pow_zero, Nat.div_one]
  case diff =>
    rw [decode, decodeOpcode_diff ((classify_diff_iff t).2 (by omega))]
    simp only [field_eq_ofNat, Nat.reducePow, Nat.div_one]
  case luma =>
    have hc : classify t = .luma := (classify_luma_iff t).2 (by omega)
    refine ⟨by rw [decode, decodeOpcode_short t [] (by simp [hc, oplen]), hc]; rfl, fun n => ?_⟩
    rw [decode, decodeOpcode_luma hc]
    simp only [field_eq_ofNat, Nat.reducePow, Nat.div_one]
  case run =>
    rw [decode, decodeOpcode_run ((classify_run_iff t).2 (by omega))]
    have harg : field t 0 6 = BitVec.ofNat 6 (t.toNat - 0xC0) :=
      BitVec.eq_of_toNat_eq (by rw [field_toNat, BitVec.toNat_ofNat]; omega)
    rw [harg]
  case rgb =>
    have hc : classify t = .rgb := (classify_rgb_iff t).2 (BitVec.eq_of_toNat_eq h)
    exact ⟨by rw [decode, decodeOpcode_short t [] (by simp [hc, oplen]), hc]; rfl, decodeOpcode_rgb hc⟩
  case rgba =>
    have hc : classify t = .rgba := (classify_rgba_iff t).2 (BitVec.eq_of_toNat_eq h)
    exact ⟨by rw [decode, decodeOpcode_short t [] (by simp [hc, oplen]), hc]; rfl, decodeOpcode_rgba hc⟩

/-- Settles O7, by running the decoder on the eleven words. -/
theorem specWordsDecode : Obligations.SpecWordsDecode := by
  unfold Obligations.SpecWordsDecode
  decide

end Sys2Proof
end

section
/-! The assembler's lines (R83): each opcode line is the encoding of the opcode with the written operands stored. -/

namespace Sys2Proof.Machine

/-- Every value in the range of a biased field is stored in it. -/
theorem exists_stored {w : Nat} {bias d : Int} (hlo : 0 ≤ d + bias) (hhi : d + bias < 2 ^ w) :
    ∃ s : BitVec w, (s.toNat : Int) - bias = d := by
  refine ⟨BitVec.ofInt w (d + bias), ?_⟩
  rw [BitVec.toNat_ofInt]
  push_cast
  rw [Int.emod_eq_of_lt hlo hhi, Int.toNat_of_nonneg hlo, Int.add_sub_cancel]

theorem assemble_index {i : Nat} (h : i ≤ 63) : Line.assemble (.index i) = encode (.index (BitVec.ofNat 6 i)) := by
  have htag : BitVec.ofNat 8 i = (0#2 ++ BitVec.ofNat 6 i : BitVec 8) := by
    apply BitVec.eq_of_toNat_eq
    simp only [tag_toNat, BitVec.toNat_ofNat]
    omega
  rw [Line.assemble, encode, htag]

theorem assemble_diff (sr sg sb : BitVec 2) :
    Line.assemble (.diff (sr.toNat - 2) (sg.toNat - 2) (sb.toNat - 2)) = encode (.diff sr sg sb) := by
  have htag : BitVec.ofInt 8 (0x40 + ((sr.toNat : Int) - 2 + 2) * 16 + ((sg.toNat : Int) - 2 + 2) * 4 + ((sb.toNat : Int) - 2 + 2)) =
      (1#2 ++ sr ++ sg ++ sb : BitVec 8) := by
    apply BitVec.eq_of_toNat_eq
    rw [diffTag_toNat, BitVec.toNat_ofInt]
    omega
  rw [Line.assemble, encode, htag]

theorem assemble_luma (sg : BitVec 6) (sr sb : BitVec 4) :
    Line.assemble (.luma (sg.toNat - 32) (sr.toNat - 8) (sb.toNat - 8)) = encode (.luma sg sr sb) := by
  have htag : BitVec.ofInt 8 (0x80 + ((sg.toNat : Int) - 32 + 32)) = (2#2 ++ sg : BitVec 8) := by
    apply BitVec.eq_of_toNat_eq
    rw [tag_toNat, BitVec.toNat_ofInt, show (2#2).toNat = 2 from rfl]
    omega
  have hop : BitVec.ofInt 8 (((sr.toNat : Int) - 8 + 8) * 16 + ((sb.toNat : Int) - 8 + 8)) = (sr ++ sb : BitVec 8) := by
    apply BitVec.eq_of_toNat_eq
    rw [lumaOperand_toNat, BitVec.toNat_ofInt]
    omega
  rw [Line.assemble, encode, htag, hop]

theorem assemble_run (s : BitVec 6) : Line.assemble (.run (s.toNat + 1)) = encode (.run s) := by
  have htag : BitVec.ofNat 8 (0xC0 + (s.toNat + 1 - 1)) = (3#2 ++ s : BitVec 8) := by
    apply BitVec.eq_of_toNat_eq
    rw [tag_toNat, BitVec.toNat_ofNat, show (3#2).toNat = 3 from rfl]
    omega
  rw [Line.assemble, encode, htag]

/-- Settles O11: each line assembles to an encoding, which decodes by the round trip; the stored fields are those the operand ranges
give. -/
theorem assemblerLinesDecode : Obligations.AssemblerLinesDecode := by
  refine ⟨fun i hr => ?index, fun dr dg db hr => ?diff, fun dg drg dbg hr => ?luma, fun n hr => ?run,
    decodeOpcode_encode_rgb, decodeOpcode_encode_rgba, fun w h c s => rfl, fun bs => rfl⟩
  case index =>
    rw [assemble_index (of_decide_eq_true hr)]
    exact decodeOpcode_encode_index _
  case diff =>
    have hrange := of_decide_eq_true hr
    obtain ⟨sr, rfl⟩ := exists_stored (w := 2) (bias := 2) (d := dr) (by omega) (by omega)
    obtain ⟨sg, rfl⟩ := exists_stored (w := 2) (bias := 2) (d := dg) (by omega) (by omega)
    obtain ⟨sb, rfl⟩ := exists_stored (w := 2) (bias := 2) (d := db) (by omega) (by omega)
    exact ⟨sr, sg, sb, by rw [assemble_diff]; exact decodeOpcode_encode_diff sr sg sb, rfl, rfl, rfl⟩
  case luma =>
    have hrange := of_decide_eq_true hr
    obtain ⟨sg, rfl⟩ := exists_stored (w := 6) (bias := 32) (d := dg) (by omega) (by omega)
    obtain ⟨sr, rfl⟩ := exists_stored (w := 4) (bias := 8) (d := drg) (by omega) (by omega)
    obtain ⟨sb, rfl⟩ := exists_stored (w := 4) (bias := 8) (d := dbg) (by omega) (by omega)
    exact ⟨sg, sr, sb, by rw [assemble_luma]; exact decodeOpcode_encode_luma sg sr sb, rfl, rfl, rfl⟩
  case run =>
    have hrange := of_decide_eq_true hr
    obtain ⟨s, rfl⟩ : ∃ s : BitVec 6, s.toNat + 1 = n :=
      ⟨BitVec.ofNat 6 (n - 1), by rw [BitVec.toNat_ofNat]; omega⟩
    exact ⟨s, by rw [assemble_run]; exact decodeOpcode_encode_run (by omega), rfl⟩

end Sys2Proof.Machine
end

section
/-! The words of the opcode table (log 7): the state made for a word stands at the word's item with all its bytes but the last taken. -/

namespace Sys2Proof.Machine

theorem lowBytes_length (w n : Nat) : (lowBytes w n).length = n := by
  induction n generalizing w with
  | zero => rfl
  | succ n ih => rw [lowBytes, List.length_cons, ih]

/-- A table word is read as the whole magic, as the four bytes of a width, or as at most five bytes of an opcode. -/
theorem tableItem_cases (nbits w : Nat) :
    tableItem nbits w = (.magic, magicBytes) ∨ (∃ bs, tableItem nbits w = (.width, bs) ∧ bs.length = 4) ∨
    ∃ bs, tableItem nbits w = (.opcode, bs) ∧ bs.length ≤ 5 := by
  simp only [tableItem]
  split_ifs
  · exact .inl rfl
  · exact .inr (.inl ⟨_, rfl, by rw [List.length_reverse, lowBytes_length]⟩)
  · exact .inr (.inr ⟨_, rfl, (List.length_take_le' _ _).trans (lowBytes_length _ 5).le⟩)

/-- The bytes of a table word before its last are such as a state can be placed after. -/
theorem tableItem_dropLast {nbits w : Nat} {it : Item} {bs : List Byte} (h : tableItem nbits w = (it, bs)) :
    (it = .magic ∧ bs.dropLast = magicBytes.take 3) ∨ (it = .width ∧ bs.dropLast.length = 3) ∨
    (it = .opcode ∧ bs.dropLast.length ≤ 4) := by
  rw [List.length_dropLast]
  rcases tableItem_cases nbits w with hm | ⟨_, hm, hl⟩ | ⟨_, hm, hl⟩ <;> cases h.symm.trans hm
  · exact .inl ⟨rfl, rfl⟩
  · exact .inr (.inl ⟨rfl, by omega⟩)
  · exact .inr (.inr ⟨rfl, by omega⟩)

/-- A word that decodes is read by the decoder as a whole item. -/
theorem decode_tableItem {nbits w : Nat} {i : Instr} (h : decodeTableWord nbits w = some i) :
    decode (tableItem nbits w).1 (tableItem nbits w).2 = .done i := by
  unfold decodeTableWord at h
  split at h <;> cases h
  assumption

/-- No bytes are no instruction. -/
theorem ne_nil_of_decode_done {it : Item} {bs : List Byte} {i : Instr} (h : decode it bs = .done i) : bs ≠ [] := by
  rintro rfl
  cases it <;> cases h

/-- A `FEED` of the last byte runs the instruction that byte completes. -/
theorem step_done {s : State} {b : Byte} {bs : List Byte} {ops : List HostOp} {i : Instr} (hf : s.feeds b bs ops) (ht : s.takes)
    (hd : decode (nextItem s) (inFlight s ++ [b]) = .done i) : step s = mapNext finishedCheck (exec i (s.taken bs ops)) := by
  rw [step_feeds hf, feed_takes (s := s.taken bs ops) ht, takeByte_done (s := s.taken bs ops) hd]

/-- The state made for a word that is read as the item `it` of the bytes `bs`. -/
theorem withFetchWord_eq {nbits w : Nat} {it : Item} {bs : List Byte} (h : tableItem nbits w = (it, bs)) (hne : bs ≠ []) (s : State) :
    s.withFetchWord nbits w = { placed it bs.dropLast s with
      stream := bs.getLast hne :: (placed it bs.dropLast s).stream, host := .feed :: (placed it bs.dropLast s).host } := by
  simp only [State.withFetchWord, h, List.drop_length_sub_one hne, List.singleton_append]

/-- Settles O13: the placed state has taken the word's bytes but the last, so the `FEED` of the last completes the instruction. -/
theorem tableWordRunsNext : Obligations.TableWordRunsNext := by
  intro s nbits w i h
  have hd := decode_tableItem h
  obtain ⟨it, bs, htable⟩ : ∃ it bs, tableItem nbits w = (it, bs) := ⟨_, _, rfl⟩
  rw [htable] at hd
  have hne : bs ≠ [] := ne_nil_of_decode_done hd
  have ⟨_, hi, _⟩ := decodedBytesAreItsEncoding it bs i hd
  obtain ⟨ht, hitem, hflight, hit, hpx, hcache, hstream, hhost⟩ := placed_spec it bs.dropLast s (tableItem_dropLast htable)
  rw [withFetchWord_eq htable hne]
  refine ⟨_, step_done ⟨rfl, rfl, hit⟩ ht (i := i) ?_, ?_, hit, hpx, hcache, hstream, hhost⟩
  · change decode (nextItem (placed it bs.dropLast s)) (inFlight (placed it bs.dropLast s) ++ [bs.getLast hne]) = .done i
    rw [hitem, hflight, List.dropLast_append_getLast hne]
    exact hd
  · change nextItem (placed it bs.dropLast s) = i.item
    rw [hitem, hi]

end Sys2Proof.Machine
end

section
/-! The header parse (R91 to R97): the magic check finds the first differing byte, then channels and colorspace are tested in this
order; the canonical bytes of a legal header pass every check. -/

namespace Sys2Proof.Machine

/-- Settles O27: both accepted values of each byte run the one accepting arm. -/
theorem channelsAndColorspaceAreInformational : Obligations.ChannelsAndColorspaceAreInformational := fun s =>
  ⟨by rw [exec_hdrChannels_ok s (.inl rfl), exec_hdrChannels_ok s (.inr rfl)],
   by rw [exec_hdrColorspace_ok s (.inl rfl), exec_hdrColorspace_ok s (.inr rfl)]⟩

/-! ### The checks of the parse -/

/-- The magic check answers the first place where the bytes differ from the magic, and the byte there (R92). -/
theorem firstMismatch_eq_some {ms bs : List Byte} {c : Nat} (n : Nat) (hm : c < ms.length) (hb : c < bs.length)
    (htake : bs.take c = ms.take c) (hne : bs.getD c 0 ≠ ms.getD c 0) :
    firstMismatch ms bs n = some (n + c, bs.getD c 0) := by
  match ms, bs, hm, hb with
  | m :: ms, b :: bs, hm, hb =>
    cases c with
    | zero => exact if_neg hne
    | succ c =>
      obtain ⟨rfl, htail⟩ := List.cons.inj htake
      rw [firstMismatch, if_pos rfl, firstMismatch_eq_some (n + 1) (Nat.lt_of_succ_lt_succ hm) (Nat.lt_of_succ_lt_succ hb) htail hne,
        Nat.add_right_comm]
      rfl

theorem parse_truncated {h : List Byte} (hl : h.length ≠ 14) : parse h = .error (.truncated h.length) := if_pos hl

theorem parse_badMagic {h : List Byte} {c : Nat} (hl : h.length = 14) (hc : c < 4) (htake : h.take c = magicBytes.take c)
    (hne : h.getD c 0 ≠ magicBytes.getD c 0) : parse h = .error (.badMagic c (h.getD c 0)) := by
  rw [parse, if_neg (not_not.2 hl), firstMismatch_eq_some 0 hc (by omega) htake hne, Nat.zero_add]

/-- With the magic in front the parse is the checks of the fields (R91). -/
theorem parse_magic (w0 w1 w2 w3 h0 h1 h2 h3 ch cs : Byte) :
    parse (magicBytes ++ [w0, w1, w2, w3, h0, h1, h2, h3, ch, cs]) = parseFields [w0, w1, w2, w3, h0, h1, h2, h3, ch, cs] := rfl

/-- Settles O51, check by check. -/
theorem parseChecksInOrder : Obligations.ParseChecksInOrder :=
  ⟨fun _ hl => parse_truncated hl, fun _ _ hl hc hne htake => parse_badMagic hl hc htake hne, parse_magic⟩

/-- The fields of a header with legal channels and colorspace pass the checks (R94, R95). -/
theorem parseFields_legal {ch cs : Byte} (hch : ch = 3 ∨ ch = 4) (hcs : cs = 0 ∨ cs = 1) (w0 w1 w2 w3 h0 h1 h2 h3 : Byte) :
    parseFields [w0, w1, w2, w3, h0, h1, h2, h3, ch, cs] = .ok ⟨be32 w0 w1 w2 w3, be32 h0 h1 h2 h3, ch, cs⟩ := by
  rw [parseFields, if_neg (by tauto), if_neg (by tauto)]

/-- A 32-bit value is the big-endian sum of its bytes (R52). -/
theorem toNat_eq_be32Bytes (v : BitVec 32) : v.toNat =
    (be32Byte v 0).toNat * 2 ^ 24 + (be32Byte v 1).toNat * 2 ^ 16 + (be32Byte v 2).toNat * 2 ^ 8 + (be32Byte v 3).toNat := by
  rw [← be32_toNat, be32_bytes]

/-- Settles O50: the canonical bytes pass every check, and each size is read back from its four bytes. -/
theorem headerRoundTrip : Obligations.HeaderRoundTrip := by
  intro h hch hcs
  refine ⟨?_, _, _, _, _, _, _, _, _, rfl, toNat_eq_be32Bytes h.width, toNat_eq_be32Bytes h.height⟩
  have hch : h.channels = 3 ∨ h.channels = 4 := hch.imp BitVec.eq_of_toNat_eq BitVec.eq_of_toNat_eq
  have hcs : h.colorspace = 0 ∨ h.colorspace = 1 := hcs.imp BitVec.eq_of_toNat_eq BitVec.eq_of_toNat_eq
  calc parse h.bytes
    _ = .ok ⟨be32 (be32Byte h.width 0) (be32Byte h.width 1) (be32Byte h.width 2) (be32Byte h.width 3),
          be32 (be32Byte h.height 0) (be32Byte h.height 1) (be32Byte h.height 2) (be32Byte h.height 3), h.channels, h.colorspace⟩ :=
      (parse_magic ..).trans (parseFields_legal hch hcs ..)
    _ = .ok h := by rw [be32_bytes, be32_bytes]

end Sys2Proof.Machine
end

section
/-! The streaming header (R98): `FEED` by `FEED` the machine tests what the parse tests, in the same order, and gathers the two sizes the
parse reads; so either all 14 bytes pass, or both fail at the first byte at fault. -/

namespace Sys2Proof.Machine

/-! ### The byte at fault -/

/-- The error the byte `b` at place `c` of the header gives, if it gives one (R122, R127, R129). -/
def headerByteErr (c : Nat) (b : Byte) : Option Err :=
  match headerItem c with
  | .magic => if b = magicBytes.getD c 0 then none else some (.badMagic c b)
  | .width => none
  | .height => none
  | .channels => if b = 3 ∨ b = 4 then none else some (.badChannels b)
  | .colorspace => if b = 0 ∨ b = 1 then none else some (.badColorspace b)
  | .opcode => none

theorem headerByteErr_magic {c : Nat} (hc : c < 4) (b : Byte) :
    headerByteErr c b = if b = magicBytes.getD c 0 then none else some (.badMagic c b) := by
  simp [headerByteErr, headerItem, hc]

theorem headerByteErr_size {c : Nat} (hlo : 4 ≤ c) (hhi : c < 12) (b : Byte) : headerByteErr c b = none := by
  by_cases hc : c < 8
  · simp [headerByteErr, headerItem, Nat.not_lt.2 hlo, hc]
  · simp [headerByteErr, headerItem, Nat.not_lt.2 hlo, hc, hhi]

theorem headerByteErr_channels (b : Byte) : headerByteErr 12 b = if b = 3 ∨ b = 4 then none else some (.badChannels b) := rfl

theorem headerByteErr_colorspace (b : Byte) : headerByteErr 13 b = if b = 0 ∨ b = 1 then none else some (.badColorspace b) := rfl

/-- Only a magic byte, the channels byte and the colorspace byte can be at fault. -/
theorem headerByteErr_eq_some {c : Nat} {b : Byte} {e : Err} (hc : c < 14) (h : headerByteErr c b = some e) :
    (c < 4 ∧ b ≠ magicBytes.getD c 0 ∧ e = .badMagic c b) ∨ (c = 12 ∧ ¬ (b = 3 ∨ b = 4) ∧ e = .badChannels b) ∨
    (c = 13 ∧ ¬ (b = 0 ∨ b = 1) ∧ e = .badColorspace b) := by
  obtain hm | ⟨hlo, hhi⟩ | rfl | rfl : c < 4 ∨ (4 ≤ c ∧ c < 12) ∨ c = 12 ∨ c = 13 := by omega
  · rw [headerByteErr_magic hm] at h
    split_ifs at h with hb
    exact .inl ⟨hm, hb, (Option.some.inj h).symm⟩
  · cases (headerByteErr_size hlo hhi b).symm.trans h
  · rw [headerByteErr_channels] at h
    split_ifs at h with hb
    exact .inr (.inl ⟨rfl, hb, (Option.some.inj h).symm⟩)
  · rw [headerByteErr_colorspace] at h
    split_ifs at h with hb
    exact .inr (.inr ⟨rfl, hb, (Option.some.inj h).symm⟩)

theorem headerByteErr_magic_none {c : Nat} (hc : c < 4) {b : Byte} : headerByteErr c b = none ↔ b = magicBytes.getD c 0 := by
  simp [headerByteErr_magic hc]

theorem headerByteErr_channels_none {b : Byte} : headerByteErr 12 b = none ↔ b = 3 ∨ b = 4 := by
  rw [headerByteErr_channels, ite_eq_left_iff]
  simp only [reduceCtorEq, imp_false, not_not]

theorem headerByteErr_colorspace_none {b : Byte} : headerByteErr 13 b = none ↔ b = 0 ∨ b = 1 := by
  rw [headerByteErr_colorspace, ite_eq_left_iff]
  simp only [reduceCtorEq, imp_false, not_not]

/-! ### The parse by the byte at fault -/

/-- The big-endian value of the four bytes from place `i` of the header on (R51, R52). -/
def headerWord (h : List Byte) (i : Nat) : BitVec 32 :=
  be32 (h.getD i 0) (h.getD (i + 1) 0) (h.getD (i + 2) 0) (h.getD (i + 3) 0)

/-- Bytes that pass the magic check up to place `c` are the magic up to there. -/
theorem take_eq_magicBytes {h : List Byte} {c : Nat} (hl : c ≤ h.length) (hc : c ≤ 4)
    (hok : ∀ k < c, headerByteErr k (h.getD k 0) = none) : h.take c = magicBytes.take c := by
  apply List.ext_getElem
  · simp [magicBytes, hl, hc]
  · intro k hk _
    have hkc : k < c := by simp at hk; omega
    have hb := (headerByteErr_magic_none (by omega)).1 (hok k hkc)
    rw [List.getElem_take, List.getElem_take, ← List.getD_eq_getElem _ 0, ← List.getD_eq_getElem _ 0]
    exact hb

/-- With the magic right, the parse is the checks of the fields. -/
theorem parse_of_magicOk {h : List Byte} (hl : h.length = 14) (hok : ∀ k < 4, headerByteErr k (h.getD k 0) = none) :
    parse h = if h.getD 12 0 ≠ 3 ∧ h.getD 12 0 ≠ 4 then .error (.badChannels (h.getD 12 0))
      else if h.getD 13 0 ≠ 0 ∧ h.getD 13 0 ≠ 1 then .error (.badColorspace (h.getD 13 0))
      else .ok ⟨headerWord h 4, headerWord h 8, h.getD 12 0, h.getD 13 0⟩ := by
  have hmagic : h.take 4 = magicBytes := take_eq_magicBytes (by omega) le_rfl hok
  match h, hl with
  | [m0, m1, m2, m3, w0, w1, w2, w3, h0, h1, h2, h3, ch, cs], _ =>
    cases hmagic
    exact parse_magic w0 w1 w2 w3 h0 h1 h2 h3 ch cs

/-- Where no byte is at fault the parse gives the header. -/
theorem parse_eq_ok {h : List Byte} (hl : h.length = 14) (hok : ∀ k < 14, headerByteErr k (h.getD k 0) = none) :
    parse h = .ok ⟨headerWord h 4, headerWord h 8, h.getD 12 0, h.getD 13 0⟩ := by
  have hch := headerByteErr_channels_none.1 (hok 12 (by omega))
  have hcs := headerByteErr_colorspace_none.1 (hok 13 (by omega))
  rw [parse_of_magicOk hl fun k hk => hok k (by omega), if_neg (by tauto), if_neg (by tauto)]

/-- The parse fails with the error of the first byte at fault. -/
theorem parse_eq_error {h : List Byte} {c : Nat} {e : Err} (hl : h.length = 14) (hc : c < 14)
    (hok : ∀ k < c, headerByteErr k (h.getD k 0) = none) (hbad : headerByteErr c (h.getD c 0) = some e) : parse h = .error e := by
  obtain ⟨hm, hne, rfl⟩ | ⟨rfl, hch, rfl⟩ | ⟨rfl, hcs, rfl⟩ := headerByteErr_eq_some hc hbad
  · exact parse_badMagic hl hm (take_eq_magicBytes (by omega) hm.le hok) hne
  · rw [parse_of_magicOk hl fun k hk => hok k (by omega), if_pos (by tauto)]
  · have hch := headerByteErr_channels_none.1 (hok 12 (by omega))
    rw [parse_of_magicOk hl fun k hk => hok k (by omega), if_neg (by tauto), if_pos (by tauto)]

/-- No byte is at fault, or one is the first. -/
theorem headerByteErr_first (h : List Byte) : (∀ k < 14, headerByteErr k (h.getD k 0) = none) ∨
    ∃ c e, c < 14 ∧ headerByteErr c (h.getD c 0) = some e ∧ ∀ k < c, headerByteErr k (h.getD k 0) = none := by
  by_cases hex : ∃ c, c < 14 ∧ headerByteErr c (h.getD c 0) ≠ none
  · obtain ⟨hc, hbad⟩ := Nat.find_spec hex
    obtain ⟨e, he⟩ := Option.ne_none_iff_exists'.1 hbad
    refine .inr ⟨_, e, hc, he, fun k hk => ?_⟩
    by_contra hne
    exact Nat.find_min hex hk ⟨hk.trans hc, hne⟩
  · exact .inl fun k hk => by_contra fun hne => hex ⟨k, hk, hne⟩

/-! ### The machine, byte by byte -/

/-- The target after the first `k` header bytes: none, the width, or the width times the height (R124, R126). -/
def headerTarget (h : List Byte) (k : Nat) : Count :=
  if k < 8 then 0
  else if k < 12 then (headerWord h 4).setWidth 64
  else (headerWord h 4).setWidth 64 * (headerWord h 8).setWidth 64

/-- The event the byte at place `c` of the header returns when it passes (R122 to R129). -/
def headerEvent (h : List Byte) (c : Nat) : Event :=
  if c < 7 then .needMore (7 - c)
  else if c = 7 then .imageWidthParsed (headerWord h 4)
  else if c < 11 then .needMore (11 - c)
  else if c = 11 then .imageHeightParsed (headerWord h 8)
  else if c = 12 then .imageChannelParsed
  else .imageColorspaceParsed

theorem headerEvent_magic (h : List Byte) (c : Fin 4) : headerEvent h c.val = .needMore (magicHint c) := if_pos (by omega)

theorem headerEvent_size (h : List Byte) {k i : Nat} (hi : i < 3) (hk : k = 4 + i ∨ k = 8 + i) :
    headerEvent h k = .needMore (3 - i) := by
  rcases hk with rfl | rfl
  · rw [headerEvent, if_pos (by omega), Nat.add_sub_add_left 4 3 i]
  · rw [headerEvent, if_neg (by omega), if_neg (by omega), if_pos (by omega), Nat.add_sub_add_left 8 3 i]

/-- Where the machine stands when it has taken the first `k` bytes of the header `h` without error. -/
structure HeaderTaken (h : List Byte) (k : Nat) (s : State) : Prop where
  empty : s.itCount = 0
  count : s.pxCount = 0
  target : s.pxTarget = headerTarget h k
  inHeader : k < 14 → s.inHeader
  position : k < 14 → headerPos s = k
  gathered : ∀ size, size = 4 ∨ size = 8 → k < size + 4 → ∀ i (_ : i < 4), size + i < k → s.scratch[i] = h.getD (size + i) 0
  phaseOver : k = 14 → s.phase = if s.pxTarget = 0 then .finished else .parsingOp

theorem headerTaken_start (h bytes : List Byte) : HeaderTaken h 0 (State.start bytes) := by
  constructor <;> simp [State.start, State.reset, headerTarget, State.inHeader, headerPos]

/-- The bytes left over are the host's: no byte has a say in what is offered next. -/
theorem stream_of_effect {b : Byte} {s t : State} (h : ByteEffect b s t) : t.stream = s.stream := by
  cases h <;> simp [gatherTag, gatherOperand]

/-- The size whose fourth byte arrives is that of its place in the header (R124, R126). -/
theorem HeaderTaken.word {h : List Byte} {k : Nat} {s : State} (hs : HeaderTaken h (k + 3) s) (hk : k = 4 ∨ k = 8) :
    be32 s.scratch[0] s.scratch[1] s.scratch[2] (h.getD (k + 3) 0) = headerWord h k := by
  have hg (i : Nat) (hi : i < 3) : s.scratch[i] = h.getD (k + i) 0 := hs.gathered k hk (by omega) i (by omega) (by omega)
  rw [headerWord, hg 0 (by omega), hg 1 (by omega), hg 2 (by omega), Nat.add_zero]

/-- In ParsingHeader `hdr_cnt` is the number of bytes taken (R25). -/
theorem HeaderTaken.hdrCnt_eq {h : List Byte} {k : Nat} {s : State} (hs : HeaderTaken h k s) (hk : k < 14)
    (hp : s.phase = .parsingHeader) : s.hdrCnt.val = k := by
  rw [← headerPos_header hp, hs.position hk]

/-- Only the fourth byte of a size moves the target (R124, R126). -/
theorem headerTarget_succ (h : List Byte) {k : Nat} (hw : k ≠ 7) (hh : k ≠ 11) : headerTarget h (k + 1) = headerTarget h k := by
  have h8 : k + 1 < 8 ↔ k < 8 := by omega
  have h12 : k + 1 < 12 ↔ k < 12 := by omega
  simp only [headerTarget, h8, h12]

/-- In ParsingHeader `hdr_cnt` tells the place, and the end of the header is still to come. -/
theorem headerTaken_of_parsingHeader {h : List Byte} {k : Nat} {s : State} (hk : k < 14) (hp : s.phase = .parsingHeader)
    (hc : s.hdrCnt.val = k) (hi : s.itCount = 0) (hn : s.pxCount = 0) (ht : s.pxTarget = headerTarget h k)
    (hg : ∀ size, size = 4 ∨ size = 8 → k < size + 4 → ∀ i (_ : i < 4), size + i < k → s.scratch[i] = h.getD (size + i) 0) :
    HeaderTaken h k s where
  empty := hi
  count := hn
  target := ht
  inHeader _ := .inr hp
  position _ := by rw [headerPos_header hp, hc]
  gathered := hg
  phaseOver h14 := absurd h14 hk.ne

/-- A magic byte that passes moves the machine on (R121, R122). -/
theorem HeaderTaken.magicOk {h : List Byte} {c : Fin 4} {s : State} (hs : HeaderTaken h c.val s) (e : Event) :
    HeaderTaken h (c.val + 1) (returnEvent e { s with phase := .parsingHeader, hdrCnt := ⟨c.val + 1, by omega⟩ }) := by
  refine headerTaken_of_parsingHeader (by omega) rfl rfl hs.empty hs.count ?_ (by omega)
  exact hs.target.trans (headerTarget_succ h (by omega) (by omega)).symm

/-- One of the first three bytes of a size is stored at its place (R123, R125). -/
theorem HeaderTaken.gather {h : List Byte} {k i : Nat} {s : State} (hs : HeaderTaken h k s) (hp : s.phase = .parsingHeader)
    (hi : i < 3) (hk : k = 4 + i ∨ k = 8 + i) (e : Event) :
    HeaderTaken h (k + 1) (returnEvent e (gatherHeader (h.getD k 0) i s)) := by
  have hc : s.hdrCnt.val = k := hs.hdrCnt_eq (by omega) hp
  refine headerTaken_of_parsingHeader (by omega) hp ?_ hs.empty hs.count ?_ ?_
  · exact (hdrNext_val (by omega)).trans (congrArg (· + 1) hc)
  · exact hs.target.trans (headerTarget_succ h (by omega) (by omega)).symm
  · intro size hsize hlt j hj hjk
    rw [returnEvent_scratch, gatherHeader_scratch, scratchSet_get]
    split_ifs with hji
    · rw [show size + j = k by omega]
    · exact hs.gathered size hsize (by omega) j hj (by omega)

/-- The fourth width byte makes the width the target (R124). -/
theorem HeaderTaken.width {h : List Byte} {s : State} (hs : HeaderTaken h 7 s) (hp : s.phase = .parsingHeader) (m : Scratch) :
    HeaderTaken h 8 (returnEvent (.imageWidthParsed (headerWord h 4))
      { s with scratch := m, pxTarget := (headerWord h 4).setWidth 64, hdrCnt := 8 }) :=
  headerTaken_of_parsingHeader (by omega) hp rfl hs.empty hs.count rfl (by omega)

/-- The fourth height byte multiplies the target by the height (R126). -/
theorem HeaderTaken.height {h : List Byte} {s : State} (hs : HeaderTaken h 11 s) (hp : s.phase = .parsingHeader) (m : Scratch) :
    HeaderTaken h 12 (returnEvent (.imageHeightParsed (headerWord h 8))
      { s with scratch := m, pxTarget := s.pxTarget * (headerWord h 8).setWidth 64, hdrCnt := 12 }) :=
  headerTaken_of_parsingHeader (by omega) hp rfl hs.empty hs.count (congrArg (· * _) hs.target) (by omega)

/-- A channels byte that passes is not kept (R127). -/
theorem HeaderTaken.channelsOk {h : List Byte} {s : State} (hs : HeaderTaken h 12 s) (hp : s.phase = .parsingHeader) (e : Event) :
    HeaderTaken h 13 (returnEvent e { s with hdrCnt := 13 }) :=
  headerTaken_of_parsingHeader (by omega) hp rfl hs.empty hs.count hs.target (by omega)

/-- With no pixel produced yet the Finished check fires just for an image of no pixels (R141). -/
theorem finishedCheck_phase_of_fresh {s : State} (hp : s.phase = .parsingOp) (hc : s.pxCount = 0) :
    (finishedCheck s).phase = if (finishedCheck s).pxTarget = 0 then .finished else .parsingOp := by
  rw [finishedCheck_pxTarget]
  rcases finishedCheck_cases s with ⟨-, ht, h⟩ | ⟨hne, h⟩ <;> rw [h]
  · rw [if_pos (ht.symm.trans hc)]
  · rw [if_neg fun hz => hne hp (hc.trans hz.symm), hp]

/-- A colorspace byte that passes ends the header; an image of no pixels is finished by it (R129, R141). -/
theorem HeaderTaken.colorspaceOk {h : List Byte} {s : State} (hs : HeaderTaken h 13 s) :
    HeaderTaken h 14 (finishedCheck (returnEvent .imageColorspaceParsed { toIdle s with phase := .parsingOp })) where
  empty := (finishedCheck_itCount _).trans hs.empty
  count := (finishedCheck_pxCount _).trans hs.count
  target := (finishedCheck_pxTarget _).trans hs.target
  inHeader := by omega
  position := by omega
  gathered := by omega
  phaseOver _ := finishedCheck_phase_of_fresh rfl hs.count

/-- Where the machine stands does not depend on what the host offers and wants, nor on what was returned last. -/
theorem HeaderTaken.taken {h : List Byte} {k : Nat} {s : State} (hs : HeaderTaken h k s) (bs : List Byte) (ops : List HostOp) :
    HeaderTaken h k (s.taken bs ops) := { hs with }

/-- A byte of the header moves the machine one place on, or it is at fault and raises its error. -/
theorem HeaderTaken.effect {h : List Byte} {k : Nat} {s t : State} (hs : HeaderTaken h k s) (hk : k < 14)
    (he : ByteEffect (h.getD k 0) s t) :
    (headerByteErr k (h.getD k 0) = none ∧ HeaderTaken h (k + 1) t ∧ t.result = some (.event (headerEvent h k))) ∨
    ∃ e, headerByteErr k (h.getD k 0) = some e ∧ t.phase = .aborted ∧ t.result = some (.error e) := by
  have hna : s.phase ≠ .parsingOp := by rcases hs.inHeader hk with hp | hp <;> simp [hp]
  cases he with
  | magicOk c _ hc hb =>
    obtain rfl : k = c.val := (hs.position hk).symm.trans hc
    exact .inl ⟨(headerByteErr_magic_none c.isLt).2 (hb.trans (magicByte_getD c)), hs.magicOk _, by rw [headerEvent_magic]; rfl⟩
  | magicBad c _ hc hb =>
    obtain rfl : k = c.val := (hs.position hk).symm.trans hc
    exact .inr ⟨_, (headerByteErr_magic c.isLt _).trans (if_neg (magicByte_getD c ▸ hb)), rfl, rfl⟩
  | gathered i hi hp hc =>
    rw [hs.hdrCnt_eq hk hp] at hc
    exact .inl ⟨headerByteErr_size (by omega) (by omega) _, hs.gather hp hi hc _, by rw [headerEvent_size h hi hc]; rfl⟩
  | width w hp hc hw =>
    obtain rfl : k = 7 := (hs.hdrCnt_eq hk hp).symm.trans hc
    obtain rfl : w = headerWord h 4 := hw.trans (hs.word (k := 4) (.inl rfl))
    exact .inl ⟨headerByteErr_size (by omega) (by omega) _, hs.width hp _, rfl⟩
  | height w hp hc hw =>
    obtain rfl : k = 11 := (hs.hdrCnt_eq hk hp).symm.trans hc
    obtain rfl : w = headerWord h 8 := hw.trans (hs.word (k := 8) (.inr rfl))
    exact .inl ⟨headerByteErr_size (by omega) (by omega) _, hs.height hp _, rfl⟩
  | channelsOk hp hc hb =>
    obtain rfl : k = 12 := (hs.hdrCnt_eq hk hp).symm.trans hc
    exact .inl ⟨headerByteErr_channels_none.2 hb, hs.channelsOk hp _, rfl⟩
  | channelsBad hp hc hb =>
    obtain rfl : k = 12 := (hs.hdrCnt_eq hk hp).symm.trans hc
    exact .inr ⟨_, if_neg hb, rfl, rfl⟩
  | colorspaceOk hp hc hb =>
    obtain rfl : k = 13 := (hs.hdrCnt_eq hk hp).symm.trans hc
    exact .inl ⟨headerByteErr_colorspace_none.2 hb, hs.colorspaceOk, finishedCheck_result _⟩
  | colorspaceBad hp hc hb =>
    obtain rfl : k = 13 := (hs.hdrCnt_eq hk hp).symm.trans hc
    exact .inr ⟨_, if_neg hb, rfl, rfl⟩
  | tag hp | operand hp | complete _ _ _ _ hp | illegal hp => exact absurd hp hna

/-! ### The run -/

/-- One `FEED` of the prompt host in the header. -/
theorem HeaderTaken.promptRun_one {h rest : List Byte} {k : Nat} {s : State} (hs : HeaderTaken h k s) (hk : k < 14)
    (hl : h.length = 14) (hr : s.stream = h.drop k ++ rest) :
    ∃ t, promptRun 1 s = some (t, []) ∧ t.stream = h.drop (k + 1) ++ rest ∧
      ((headerByteErr k (h.getD k 0) = none ∧ HeaderTaken h (k + 1) t ∧ t.result = some (.event (headerEvent h k))) ∨
       ∃ e, headerByteErr k (h.getD k 0) = some e ∧ t.phase = .aborted ∧ t.result = some (.error e)) := by
  have hstream : s.stream = h.getD k 0 :: (h.drop (k + 1) ++ rest) := by
    rw [hr, List.drop_eq_getElem_cons (by omega), List.getD_eq_getElem _ 0 (by omega), List.cons_append]
  have ht : s.takes := inHeader_takes (hs.inHeader hk)
  have hs' : HeaderTaken h k (s.taken (h.drop (k + 1) ++ rest) []) := hs.taken _ _
  obtain ⟨t, -, he⟩ := takeByte_effect (s := s.taken (h.drop (k + 1) ++ rest) []) ht (h.getD k 0)
  exact ⟨t, promptRun_byte hstream hs.empty ht he, stream_of_effect he, hs'.effect hk he⟩

/-- While no byte is at fault the machine takes the header. -/
theorem promptRun_header {h : List Byte} (rest : List Byte) {k : Nat} (hl : h.length = 14) (hk : k ≤ 14)
    (hok : ∀ c < k, headerByteErr c (h.getD c 0) = none) :
    ∃ t, promptRun k (State.start (h ++ rest)) = some (t, []) ∧ t.stream = h.drop k ++ rest ∧ HeaderTaken h k t ∧
      ∀ c, k = c + 1 → t.result = some (.event (headerEvent h c)) := by
  induction k with
  | zero => exact ⟨_, rfl, rfl, headerTaken_start h _, by simp⟩
  | succ k ih =>
    obtain ⟨s, hrun, hr, hs, -⟩ := ih (by omega) fun c hc => hok c (by omega)
    obtain ⟨t, h1, hr', ⟨-, ht, he⟩ | ⟨e, hbad, -⟩⟩ := hs.promptRun_one (by omega) hl hr
    · exact ⟨t, promptRun_trans hrun h1, hr', ht, fun c hc => by cases hc; exact he⟩
    · cases (hok k (by omega)).symm.trans hbad

/-- The first byte at fault ends the header with its error. -/
theorem promptRun_header_error {h : List Byte} (rest : List Byte) {c : Nat} {e : Err} (hl : h.length = 14) (hc : c < 14)
    (hok : ∀ k < c, headerByteErr k (h.getD k 0) = none) (hbad : headerByteErr c (h.getD c 0) = some e) :
    ∃ t, promptRun (c + 1) (State.start (h ++ rest)) = some (t, []) ∧ t.stream = h.drop (c + 1) ++ rest ∧
      t.phase = .aborted ∧ t.result = some (.error e) := by
  obtain ⟨s, hrun, hr, hs, -⟩ := promptRun_header rest hl hc.le hok
  obtain ⟨t, h1, hr', ⟨hnone, -⟩ | ⟨e', hsome, hp, he⟩⟩ := hs.promptRun_one hc hl hr
  · cases hnone.symm.trans hbad
  · cases hsome.symm.trans hbad
    exact ⟨t, promptRun_trans hrun h1, hr', hp, he⟩

theorem HeaderTaken.not_aborted {h : List Byte} {k : Nat} {s : State} (hs : HeaderTaken h k s) (hk : k < 14) :
    s.phase ≠ .aborted := by
  rcases hs.inHeader hk with hp | hp <;> simp [hp]

/-- The target is the number of pixels, for the product of two 32-bit sizes does not wrap (R30). -/
theorem headerTarget_toNat (h : List Byte) : (headerTarget h 14).toNat = (headerWord h 4).toNat * (headerWord h 8).toNat := by
  have hlt : (headerWord h 4).toNat * (headerWord h 8).toNat < 2 ^ 32 * 2 ^ 32 :=
    Nat.mul_lt_mul'' (headerWord h 4).isLt (headerWord h 8).isLt
  change ((headerWord h 4).setWidth 64 * (headerWord h 8).setWidth 64).toNat = _
  rw [BitVec.toNat_mul, BitVec.toNat_setWidth_of_le (by omega), BitVec.toNat_setWidth_of_le (by omega)]
  exact Nat.mod_eq_of_lt hlt

/-- Settles O52: no byte is at fault, and the parse gives the header the machine took; or one is the first, and both give its error. -/
theorem streamingHeaderMatchesParse : Obligations.StreamingHeaderMatchesParse := by
  intro h rest hl
  obtain hok | ⟨c, e, hc, hbad, hok⟩ := headerByteErr_first h
  · rw [parse_eq_ok hl hok]
    refine ⟨?_, by rintro e ⟨⟩⟩
    rintro hdr ⟨⟩
    obtain ⟨t, hrun, hr, ht, he⟩ := promptRun_header rest hl le_rfl hok
    obtain ⟨u, hrunu, -, -, heu⟩ := promptRun_header (k := 8) rest hl (by omega) fun k hk => hok k (by omega)
    obtain ⟨v, hrunv, -, -, hev⟩ := promptRun_header (k := 12) rest hl (by omega) fun k hk => hok k (by omega)
    have htarget : t.pxTarget.toNat = (headerWord h 4).toNat * (headerWord h 8).toNat := by rw [ht.target, headerTarget_toNat]
    refine ⟨t, hrun, he 13 rfl, htarget, ?_, ?_, ⟨u, hrunu, heu 7 rfl⟩, v, hrunv, hev 11 rfl⟩
    · rw [← htarget]
      exact (ht.phaseOver rfl).trans (if_congr BitVec.toNat_inj.symm rfl rfl)
    · rw [hr, List.drop_of_length_le hl.le, List.nil_append]
  · rw [parse_eq_error hl hc hok hbad]
    refine ⟨by rintro hdr ⟨⟩, ?_⟩
    rintro _ ⟨⟩
    obtain ⟨t, hrun, hr, hp, he⟩ := promptRun_header_error rest hl hc hok hbad
    refine ⟨c, t, hc, hrun, he, hp, hr, ?_, fun k hk => ?_⟩
    · obtain ⟨hm, -, rfl⟩ | ⟨rfl, -, rfl⟩ | ⟨rfl, -, rfl⟩ := headerByteErr_eq_some hc hbad
      · exact .inl ⟨_, rfl, rfl, hm⟩
      · exact .inr (.inl ⟨rfl, rfl⟩)
      · exact .inr (.inr ⟨rfl, rfl⟩)
    · obtain ⟨u, hrunu, -, hu, -⟩ := promptRun_header (k := k) rest hl (by omega) fun j hj => hok j (by omega)
      exact ⟨u, hrunu, hu.not_aborted (by omega)⟩

end Sys2Proof.Machine
end

section
/-! The opcodes (R100 to R108): each runs in every state; five of them produce a new pixel and write it to its slot, RUN repeats the
last one. -/

namespace Sys2Proof.Machine

/-- `produce(p)`: an opcode that makes one new pixel and puts it in the cache completes with it in every state (R100, R137). -/
theorem exec_produces {i : Instr} {s : State} {p : Pixel} (h : opcodeResult i s = some (p, cachePut s.cache p, 1)) :
    ∃ t, exec i s = .next t ∧ Completed s t p 1 ∧ CacheWritten s t p :=
  ⟨_, exec_opcode h, completed_emit (by omega), written_put _ _ _ (emit_cache _ _)⟩

/-- Settles O14: RGB produces its three operands with the old alpha. -/
theorem rgbExecutes : Obligations.RgbExecutes := fun r g b _ =>
  ⟨rfl, exec_produces (i := .rgb r g b) rfl⟩

/-- Settles O15: RGBA produces its four operands. -/
theorem rgbaExecutes : Obligations.RgbaExecutes := fun r g b a _ =>
  ⟨rfl, rfl, exec_produces (i := .rgba r g b a) rfl⟩

/-- Settles O16: INDEX produces the pixel it reads, so that pixel is written to the slot of its own hash (D7). -/
theorem indexExecutes : Obligations.IndexExecutes := fun k _ =>
  exec_produces (i := .index k) rfl

/-- Settles O17: DIFF produces `diffPixel`, and each of its channels is one biased sum (`addend_int`). -/
theorem diffExecutes : Obligations.DiffExecutes := by
  intro dr dg db s
  obtain ⟨t, ht, hc, hw⟩ := exec_produces (i := .diff dr dg db) (s := s) rfl
  exact ⟨t, diffPixel s.px dr dg db, ht, hc, hw, rfl, addend_int (by omega) s.px.r dr 2, addend_int (by omega) s.px.g dg 2,
    addend_int (by omega) s.px.b db 2⟩

/-- Two biased fields added to a channel one after the other are one integer sum, reduced modulo 256 once (R103, R107). -/
theorem addend_addend_int {v w : Nat} (hv : v ≤ 8) (hw : w ≤ 8) (ch : Byte) (x : BitVec v) (y : BitVec w) (biasX biasY : Byte) :
    ((ch + addend x biasX + addend y biasY).toNat : Int) =
      (ch.toNat + ((x.toNat - biasX.toNat) + (y.toNat - biasY.toNat))) % 256 := by
  rw [addend_int hw, addend_int hv, Int.emod_add_emod, add_assoc]

/-- Settles O18: LUMA produces `lumaPixel`; green is one biased sum, red and blue are the green delta and their own. -/
theorem lumaExecutes : Obligations.LumaExecutes := by
  intro dg drdg dbdg s
  obtain ⟨t, ht, hc, hw⟩ := exec_produces (i := .luma dg drdg dbdg) (s := s) rfl
  exact ⟨t, lumaPixel s.px dg drdg dbdg, ht, hc, hw, rfl, addend_int (by omega) s.px.g dg 32,
    addend_addend_int (by omega) (by omega) s.px.r dg drdg 32 8, addend_addend_int (by omega) (by omega) s.px.b dg dbdg 32 8⟩

/-- Settles O19: RUN emits the last pixel again; the clamp keeps the count within the pixels owed, and a stored length is at most 61. -/
theorem runExecutes : Obligations.RunExecutes := by
  intro n s hn howed
  have hle : min (n.toNat + 1) (s.pxTarget.toNat - s.pxCount.toNat) ≤ 62 := by omega
  exact ⟨_, _, exec_opcode (i := .run n) rfl, rfl, by omega, hle, completed_emit (hle.trans (by omega)), fun _ => rfl⟩

/-! ### Alpha (R108) -/

/-- Only RGBA and INDEX take the alpha of their pixel from elsewhere than the last one. -/
theorem opcodeResult_alpha {i : Instr} {s : State} {p : Pixel} {m : Cache} {k : Nat} (h : opcodeResult i s = some (p, m, k)) :
    p.a = s.px.a ∨ (∃ r g b a, i = .rgba r g b a ∧ p.a = a) ∨ ∃ j, i = .index j ∧ p.a = (cacheRead s.cache j).a := by
  cases i <;> simp only [opcodeResult, Option.some.injEq, Prod.mk.injEq, reduceCtorEq] at h <;> obtain ⟨rfl, -, -⟩ := h
  case rgba r g b a => exact .inr (.inl ⟨r, g, b, a, rfl, rfl⟩)
  case index j => exact .inr (.inr ⟨j, rfl, rfl⟩)
  all_goals exact .inl rfl

/-- A header item leaves the last pixel, or it raises an error. -/
theorem exec_header_px {i : Instr} {s t : State} (hi : opcodeResult i s = none) (h : exec i s = .next t) :
    t.phase = .aborted ∨ t.px = s.px := by
  cases i with
  | rgb | rgba | index | diff | luma | run => cases hi
  | hdrWidth w => cases h; exact .inr rfl
  | hdrHeight w => cases h; exact .inr rfl
  | hdrMagic c b =>
    by_cases hb : b = magicByte c
    · rw [hb, exec_hdrMagic_ok] at h; cases h; exact .inr rfl
    · rw [exec_hdrMagic_bad s hb] at h; cases h; exact .inl rfl
  | hdrChannels b =>
    by_cases hb : b = 3 ∨ b = 4
    · rw [exec_hdrChannels_ok s hb] at h; cases h; exact .inr rfl
    · rw [exec_hdrChannels_bad s hb] at h; cases h; exact .inl rfl
  | hdrColorspace b =>
    by_cases hb : b = 0 ∨ b = 1
    · rw [exec_hdrColorspace_ok s hb] at h; cases h; exact .inr rfl
    · rw [exec_hdrColorspace_bad s hb] at h; cases h; exact .inl rfl

/-- Settles O20: an opcode ends with the pixel `opcodeResult` gives, and a header item that raises no error keeps the last one. -/
theorem alphaChangesOnlyThroughRgbaAndIndex : Obligations.AlphaChangesOnlyThroughRgbaAndIndex := by
  intro i s t h hna hne
  cases hr : opcodeResult i s with
  | none =>
    rcases exec_header_px hr h with hp | hpx
    · exact absurd hp hna
    · exact absurd (by rw [hpx]) hne
  | some r =>
    obtain ⟨p, m, k⟩ := r
    rw [exec_opcode hr] at h
    cases h
    exact (opcodeResult_alpha hr).resolve_left hne

end Sys2Proof.Machine
end

section
/-! The phases (R24, R111): what moves the top-level state, and from where to where. -/

namespace Sys2Proof.Machine

/-- In the opcode stream the Finished check keeps the phase or ends it (R141). -/
theorem finishedCheck_phase {s : State} (hp : s.phase = .parsingOp) :
    (finishedCheck s).phase = .parsingOp ∨ (finishedCheck s).phase = .finished := by
  rcases finishedCheck_cases s with ⟨-, -, h⟩ | ⟨-, h⟩ <;> rw [h]
  · exact .inr rfl
  · exact .inl hp

/-- The phase moves of a byte taken: forward, or to Aborted (R111). -/
theorem phase_of_byteEffect {b : Byte} {s t : State} (h : ByteEffect b s t) (hne : t.phase ≠ s.phase) :
    t.phase = .aborted ∨ (s.phase = .notStarted ∧ t.phase = .parsingHeader) ∨
    (s.phase = .parsingHeader ∧ s.hdrCnt.val = 13 ∧ (t.phase = .parsingOp ∨ t.phase = .finished)) ∨
    (s.phase = .parsingOp ∧ t.phase = .finished) := by
  cases h with
  | magicBad | channelsBad | colorspaceBad | illegal => exact .inl rfl
  | gathered | width | height | channelsOk => exact absurd rfl hne
  | magicOk c hh hc hb =>
    have hp : s.phase = .notStarted := hh.resolve_right fun hp => hne hp.symm
    exact .inr (.inl ⟨hp, rfl⟩)
  | colorspaceOk hp hc hb => exact .inr (.inr (.inl ⟨hp, hc, finishedCheck_phase rfl⟩))
  | tag hp | operand hp | complete _ _ _ _ hp =>
    exact .inr (.inr (.inr ⟨hp, Or.resolve_left (finishedCheck_phase hp) fun h => hne (h.trans hp.symm)⟩))

/-- Settles O49, by the inversion of a step: apart from reset and power-on only a byte taken moves the phase. -/
theorem phaseMovesOnlyForward : Obligations.PhaseMovesOnlyForward := by
  intro s t h hne
  cases step_inv h with
  | idle | empty | yielded | held | noByte | finished => exact absurd rfl hne
  | reset ops hh => exact .inl (by rw [hh]; rfl)
  | powerOn ops hh => exact .inr (.inl (by rw [hh]; rfl))
  | byte b bs ops _ hf ht he => exact .inr (.inr (phase_of_byteEffect (s := s.taken bs ops) he hne))

end Sys2Proof.Machine
end

section
/-! The header items (R121 to R129): each instruction's effect with its frame, and the step that runs it at its place in the header. -/

namespace Sys2Proof.Machine

/-! ### Shared by the header items -/

/-- The frame of a header item, for a state given as the old one with header registers, opcode registers and result written. -/
theorem headerFrame_of_eq {s t : State}
    (h : t = { s with
      phase := t.phase, hdrCnt := t.hdrCnt, opBusy := t.opBusy, opTag := t.opTag, opNread := t.opNread,
      scratch := t.scratch, pxTarget := t.pxTarget, result := t.result }) : HeaderFrame s t := by
  rw [h]
  exact ⟨rfl, fun _ => rfl, rfl, ⟨rfl, rfl⟩, rfl, rfl, rfl⟩

/-- The Finished check is within the frame of a header item (R141). -/
theorem HeaderFrame.finishedCheck {s t : State} (h : HeaderFrame s t) : HeaderFrame s (finishedCheck t) where
  px := (finishedCheck_px t).trans h.px
  cache j := by rw [finishedCheck_cache]; exact h.cache j
  pxCount := (finishedCheck_pxCount t).trans h.pxCount
  iter := by rw [finishedCheck_itCount, finishedCheck_itPx]; exact h.iter
  hostSide := by rw [finishedCheck_stream, finishedCheck_host, finishedCheck_draw]; exact h.hostSide

/-- Outside the opcode stream the Finished check adds nothing to an outcome (R141). -/
theorem mapNext_finishedCheck_other {o : Host.Outcome State Fault Refusal} {t : State} (h : o = .next t) (hp : t.phase ≠ .parsingOp) :
    mapNext finishedCheck o = o := by
  rw [h, mapNext_next, finishedCheck_other hp]

/-- The step of a byte that is taken. -/
theorem step_takes {s : State} {b : Byte} {bs : List Byte} {ops : List HostOp} (hf : s.feeds b bs ops) (ht : s.takes) :
    step s = takeByte b (s.taken bs ops) := by
  rw [step_feeds hf, feed_takes (s := s.taken bs ops) ht]

/-- One of two byte values, as numbers. -/
theorem byte_or_iff (b : Byte) {m n : Nat} (hm : m < 256) (hn : n < 256) :
    b = BitVec.ofNat 8 m ∨ b = BitVec.ofNat 8 n ↔ b.toNat = m ∨ b.toNat = n :=
  or_congr (byte_eq_iff b m hm) (byte_eq_iff b n hn)

/-- The channel bytes R127 accepts. -/
theorem channels_iff (b : Byte) : b = 3 ∨ b = 4 ↔ b.toNat = 3 ∨ b.toNat = 4 :=
  byte_or_iff b (m := 3) (n := 4) (by omega) (by omega)

/-- The colorspace bytes R129 accepts. -/
theorem colorspace_iff (b : Byte) : b = 0 ∨ b = 1 ↔ b.toNat = 0 ∨ b.toNat = 1 :=
  byte_or_iff b (m := 0) (n := 1) (by omega) (by omega)

/-! ### The magic bytes -/

/-- A magic byte leaves the machine in the header or aborted, so nothing follows its meaning. -/
theorem takeByte_magic_exec {s : State} (h : s.inHeader) (c : Fin 4) (hc : headerPos s = c.val) (b : Byte) :
    takeByte b s = exec (.hdrMagic c b) s := by
  rw [takeByte_magic h c hc]
  by_cases hb : b = magicByte c
  · rw [hb]; exact mapNext_finishedCheck_other (exec_hdrMagic_ok c s) (by simp)
  · exact mapNext_finishedCheck_other (exec_hdrMagic_bad s hb) (by simp)

/-- Settles O21: HDR_MAGIC tests its byte against the magic, and at byte c the step is HDR_MAGIC at c. -/
theorem magicByteExecutes : Obligations.MagicByteExecutes := by
  intro c b s
  rw [← magicByte_getD c]
  refine ⟨?_, fun hb => ⟨_, exec_hdrMagic_bad s hb, raise_raised _ s⟩, fun bs ops hf hp hc => ?_⟩
  · rintro rfl
    exact ⟨_, exec_hdrMagic_ok c s, rfl, rfl, rfl, headerFrame_of_eq rfl, rfl, rfl, rfl, rfl, rfl⟩
  · rw [step_takes hf (.inr (.inl hp))]
    exact takeByte_magic_exec (s := s.taken bs ops) (.inr hp) c ((headerPos_header hp).trans hc) b

/-- Settles O28: both states stand at header byte 0, and HDR_MAGIC overwrites the two registers they differ in. -/
theorem firstByteIsHeaderByteZero : Obligations.FirstByteIsHeaderByteZero := by
  intro s b bs ops hf hp
  have ht : s.takes := .inl hp
  have hh : (s.taken bs ops).inHeader := .inl hp
  have hpos : headerPos (s.taken bs ops) = (0 : Fin 4).val := headerPos_notStarted hp
  have hq : b = magicByte 0 ↔ b.toNat = 0x71 := byte_eq_iff b 0x71 (by omega)
  refine ⟨?_, fun h71 => ?_, fun hne => ?_⟩
  · have hf' : State.feeds { s with phase := .parsingHeader, hdrCnt := 0 } b bs ops := hf
    rw [step_takes hf ht, step_takes hf' (.inr (.inl rfl)), takeByte_magic_exec hh 0 hpos,
      takeByte_magic_exec (s := State.taken { s with phase := .parsingHeader, hdrCnt := 0 } bs ops) (.inr rfl) 0 rfl]
    by_cases hb : b = magicByte 0
    · rw [hb, exec_hdrMagic_ok, exec_hdrMagic_ok]; rfl
    · rw [exec_hdrMagic_bad _ hb, exec_hdrMagic_bad _ hb]; rfl
  · exact ⟨_, step_of_effect hf ht (.magicOk 0 hh hpos (hq.2 h71)), rfl, rfl, rfl⟩
  · exact ⟨_, step_of_effect hf ht (.magicBad 0 hh hpos (mt hq.1 hne)), raise_raised _ _⟩

/-! ### Width and height -/

/-- The last byte of a size goes to the last scratch place and to no other (R124, R126). -/
theorem scratchSet_lastByte (m : Scratch) (v : BitVec 32) :
    (scratchSet m 3 (be32Byte v 3))[3].toNat = v.toNat % 256 ∧
    ∀ (i : Nat) (h : i < 3), (scratchSet m 3 (be32Byte v 3))[i] = m[i] := by
  constructor
  · rw [scratchSet_get, if_pos rfl, be32Byte_toNat, Nat.mul_comm, Nat.sub_self, pow_zero, Nat.div_one]
  · intro i h
    rw [scratchSet_get _ _ _ _ (by omega), if_neg (by omega)]

/-- Settles O22: HDR_WIDTH widens the width to the target, and the fourth width byte runs it on the big-endian value. -/
theorem widthExecutes : Obligations.WidthExecutes := by
  refine ⟨fun w s => ?_, fun s b bs ops hf hp hc => ?_⟩
  · obtain ⟨hlast, hothers⟩ := scratchSet_lastByte s.scratch w
    exact ⟨_, rfl, BitVec.toNat_setWidth_of_le (by omega), rfl, rfl, hlast, hothers, rfl, headerFrame_of_eq rfl, rfl, rfl, rfl⟩
  · refine ⟨be32 s.scratch[0] s.scratch[1] s.scratch[2] b, be32_toNat _ _ _ _, ?_⟩
    rw [step_takes hf (.inr (.inl hp))]
    exact takeByte_width_last (s := s.taken bs ops) hp hc b

/-- A target that is a 32-bit width times a height does not wrap (R126). -/
theorem mul_setWidth_toNat {x : Count} (hx : x.toNat < 2 ^ 32) (h : BitVec 32) :
    (x * h.setWidth 64).toNat = x.toNat * h.toNat := by
  have hlt : x.toNat * h.toNat < 2 ^ 32 * 2 ^ 32 := Nat.mul_lt_mul'' hx h.isLt
  rw [BitVec.toNat_mul, BitVec.toNat_setWidth_of_le (by omega)]
  exact Nat.mod_eq_of_lt hlt

/-- Settles O23: HDR_HEIGHT multiplies the target, and the fourth height byte runs it on the big-endian value. -/
theorem heightExecutes : Obligations.HeightExecutes := by
  refine ⟨fun h s => ?_, fun s b bs ops hf hp hc => ?_⟩
  · obtain ⟨hlast, hothers⟩ := scratchSet_lastByte s.scratch h
    exact ⟨_, rfl, fun hx => mul_setWidth_toNat hx h, rfl, rfl, hlast, hothers, rfl, headerFrame_of_eq rfl, rfl, rfl, rfl⟩
  · refine ⟨be32 s.scratch[0] s.scratch[1] s.scratch[2] b, be32_toNat _ _ _ _, ?_⟩
    rw [step_takes hf (.inr (.inl hp))]
    exact takeByte_height_last (s := s.taken bs ops) hp hc b

/-- Settles O29: the byte of either size is gathered at its place. -/
theorem widthAndHeightBytesGather : Obligations.WidthAndHeightBytesGather := by
  intro s b bs ops i hi hf hp hc
  refine ⟨_, step_of_effect hf (.inr (.inl hp)) (.gathered i hi hp hc), rfl, hdrNext_val (c := s.hdrCnt) (by omega), ?_, ?_,
    hp, rfl, headerFrame_of_eq rfl, rfl, rfl, rfl⟩
  · exact (scratchSet_get s.scratch i b i (by omega)).trans (if_pos rfl)
  · intro j hj hne
    exact (scratchSet_get s.scratch i b j hj).trans (if_neg hne)

/-! ### Channels and colorspace -/

/-- Settles O24: HDR_CHANNELS tests its byte, and at byte 12 the step is HDR_CHANNELS, with nothing after it. -/
theorem channelsExecutes : Obligations.ChannelsExecutes := by
  intro b s
  rw [← not_or, ← channels_iff]
  refine ⟨fun hb => ?_, fun hb => ⟨_, exec_hdrChannels_bad s hb, raise_raised _ s⟩, fun bs ops hf hp hc => ?_⟩
  · exact ⟨_, exec_hdrChannels_ok s hb, rfl, rfl, rfl, headerFrame_of_eq rfl, rfl, rfl, rfl, rfl, rfl⟩
  · rw [step_takes hf (.inr (.inl hp)), takeByte_channels (s := s.taken bs ops) hp hc]
    by_cases hb : b = 3 ∨ b = 4
    · exact mapNext_finishedCheck_other (exec_hdrChannels_ok _ hb) (by simp [hp])
    · exact mapNext_finishedCheck_other (exec_hdrChannels_bad _ hb) (by simp)

/-- Settles O25: HDR_COLORSPACE tests its byte and enters the opcode stream Idle. -/
theorem colorspaceExecutes : Obligations.ColorspaceExecutes := by
  intro b s
  rw [← not_or, ← colorspace_iff]
  refine ⟨fun hb => ?_, fun hb => ⟨_, exec_hdrColorspace_bad s hb, raise_raised _ s⟩⟩
  exact ⟨_, exec_hdrColorspace_ok s hb, rfl, rfl, rfl, rfl, rfl, rfl, headerFrame_of_eq rfl, rfl, rfl⟩

/-- In the opcode stream the Finished check tells the two phases apart by the count (R141). -/
theorem finishedCheck_phase_eq {s : State} (hp : s.phase = .parsingOp) :
    (finishedCheck s).phase = if s.pxCount = s.pxTarget then .finished else .parsingOp := by
  by_cases hc : s.pxCount = s.pxTarget
  · rw [finishedCheck_fires hp hc, if_pos hc]
  · rw [finishedCheck_owing hc, if_neg hc, hp]

/-- An Idle machine stays Idle through the Finished check (R139, R141). -/
theorem finishedCheck_idle {s : State} (hb : s.opBusy = false) (ht : s.opTag = 0) (hn : s.opNread = 0) :
    (finishedCheck s).opBusy = false ∧ (finishedCheck s).opTag = 0 ∧ (finishedCheck s).opNread = 0 := by
  rcases finishedCheck_cases s with ⟨-, -, h⟩ | ⟨-, h⟩ <;> rw [h]
  · exact ⟨rfl, rfl, rfl⟩
  · exact ⟨hb, ht, hn⟩

/-- Settles O26: the step is HDR_COLORSPACE and the Finished check, which ends a zero-pixel image at once. -/
theorem colorspaceByteEntersOpcodeStream : Obligations.ColorspaceByteEntersOpcodeStream := by
  intro s b bs ops hf hp hc
  have ht : s.takes := .inr (.inl hp)
  rw [← not_or, ← colorspace_iff]
  refine ⟨fun hb => ?_, fun hb => ⟨_, step_of_effect hf ht (.colorspaceBad hp hc hb), raise_raised _ _⟩⟩
  obtain ⟨hbusy, htag, hnread⟩ := finishedCheck_idle
    (s := returnEvent .imageColorspaceParsed { toIdle (s.taken bs ops) with phase := .parsingOp }) rfl rfl rfl
  refine ⟨_, step_of_effect hf ht (.colorspaceOk hp hc hb), finishedCheck_phase_eq rfl, finishedCheck_result _, ?_,
    hbusy, htag, hnread, (headerFrame_of_eq rfl).finishedCheck, finishedCheck_scratch _, finishedCheck_pxTarget _⟩
  rw [finishedCheck_hdrCnt]
  exact hc

end Sys2Proof.Machine
end

section
/-! The opcode stream (R130 to R148): what one byte does with the opcode it belongs to, and an opcode fed byte by byte. -/

namespace Sys2Proof.Machine

/-! ### One byte -/

/-- Settles O12: a `FEED` that is not held takes its byte, and a byte that completes an instruction runs it. -/
theorem stepRunsDecodedInstruction : Obligations.StepRunsDecodedInstruction :=
  fun _ _ _ _ _ hf ht hd => step_done hf ht hd

/-- Settles O30: a tag without operand bytes is a whole opcode, and every opcode ends in `emit`. -/
theorem oneByteOpcodeCompletesOnItsTag : Obligations.OneByteOpcodeCompletesOnItsTag := by
  intro s b bs ops hf hp hb hcls
  have hlen : oplen (classify b) = 0 := by rcases hcls with h | h | h <;> rw [h] <;> rfl
  obtain ⟨i, hd⟩ := decodeOpcode_whole b [] hlen.symm
  obtain ⟨p, m, k, hr⟩ := opcodeResult_isSome (s.taken bs ops) (decodeOpcode_item hd)
  refine ⟨i, _, _, encode_of_decodeOpcode hd, exec_opcode hr, ?_, finishedCheck_result _⟩
  rw [step_takes hf (.inr (.inr hp)), takeByte_whole (s := s.taken bs ops) hp hb hd, exec_opcode hr, mapNext_next]

/-- The tags with operand bytes to come, by value (R71). -/
theorem oplen_classify_of_multiByte {t : Byte} {n : Nat}
    (h : (t.toNat = 0xFE ∧ n = 3) ∨ (t.toNat = 0xFF ∧ n = 4) ∨ (0x80 ≤ t.toNat ∧ t.toNat ≤ 0xBF ∧ n = 1)) :
    oplen (classify t) = n := by
  rcases h with ⟨ht, rfl⟩ | ⟨ht, rfl⟩ | ⟨hlo, hhi, rfl⟩
  · rw [(classify_rgb_iff t).2 ((byte_eq_iff t 0xFE (by omega)).2 ht)]; rfl
  · rw [(classify_rgba_iff t).2 ((byte_eq_iff t 0xFF (by omega)).2 ht)]; rfl
  · rw [(classify_luma_iff t).2 (by omega)]; rfl

/-- Settles O31: the tag is kept, and with pixels owed the Finished check leaves it at that. -/
theorem multiByteTagAwaitsItsOperands : Obligations.MultiByteTagAwaitsItsOperands := by
  intro s b bs ops n hf hp hb howed htag
  have hlen := oplen_classify_of_multiByte htag
  rw [step_of_effect hf (.inr (.inr hp)) (.tag hp hb (by omega)), finishedCheck_owing, hlen]
  · rfl
  · exact howed

/-- Settles O32: the operand byte is stored and counted, and with pixels owed the Finished check leaves it at that. -/
theorem operandByteWaitsInScratch : Obligations.OperandByteWaitsInScratch := by
  intro s b bs ops i L hf hp hb howed hi htag hlt
  have hlen : oplen (classify s.opTag) = L ∧ L ≤ 4 := by
    rcases htag with ⟨ht, rfl⟩ | ⟨ht, rfl⟩ <;> rw [ht] <;> exact ⟨rfl, by omega⟩
  obtain ⟨hlen, hle⟩ := hlen
  have hstep := step_of_effect hf (.inr (.inr hp)) (.operand (b := b) hp hb (by rw [taken_opNread, taken_opTag]; omega))
  rw [finishedCheck_owing (s := returnEvent _ (gatherOperand b (s.taken bs ops))) howed] at hstep
  refine ⟨_, hstep, ?_, ?_, fun j hj => ?_, rfl⟩
  · rw [returnEvent_opNread, gatherOperand_opNread, taken_opNread, BitVec.toNat_add, hi]
    exact Nat.mod_eq_of_lt (show i + 1 < 2 ^ 3 by omega)
  · rw [returnEvent_result, taken_opTag, taken_opNread, hlen, hi]
  · rw [← hi]
    exact scratchSet_get s.scratch s.opNread.toNat b j hj

/-- Settles O33: the operand bytes in scratch and the byte at hand decode to the opcode of the tag. -/
theorem lastOperandByteCompletesOpcode : Obligations.LastOperandByteCompletesOpcode := by
  intro s b bs ops hf hp hb
  have hlast {i : Instr} (hd : decodeOpcode (s.opTag :: (s.scratch.toList.take s.opNread.toNat ++ [b])) = .done i) :
      step s = mapNext finishedCheck (exec i (s.taken bs ops)) := by
    rw [step_takes hf (.inr (.inr hp))]
    exact takeByte_last (s := s.taken bs ops) hp hb hd
  rw [scratch_toList] at hlast
  refine ⟨fun ht hn => hlast ?_, fun ht hn => hlast ?_, fun hlo hhi hn => ?_⟩
  · rw [hn]
    exact decodeOpcode_rgb ((classify_rgb_iff _).2 ht) _ _ _
  · rw [hn]
    exact decodeOpcode_rgba ((classify_rgba_iff _).2 ht) _ _ _ _
  · have hbyte := b.isLt
    refine ⟨field s.opTag 0 6, field b 4 4, field b 0 4, ?_, ?_, ?_, hlast ?_⟩
    · rw [field_toNat]; omega
    · rw [field_toNat]; omega
    · rw [field_toNat]; omega
    · rw [hn]
      exact decodeOpcode_luma ((classify_luma_iff _).2 (by omega)) b

/-- The tags of multi-byte opcodes are those with operand bytes (R71). -/
theorem multiByte_iff_oplen (o : Opcode) : o = .rgb ∨ o = .rgba ∨ o = .luma ↔ oplen o ≠ 0 := by
  cases o <;> simp [oplen]

/-- Settles O34: illegal registers count no operand byte still to come, and the tag's class decides which error that is. -/
theorem illegalOpcodeRegistersRaise : Obligations.IllegalOpcodeRegistersRaise := by
  intro s b bs ops hf hp hb hillegal
  rw [legalInFlight_iff, Nat.not_lt] at hillegal
  refine ⟨_, step_of_effect hf (.inr (.inr hp)) (.illegal hp hb hillegal), ?_⟩
  rw [taken_opTag, taken_opNread]
  by_cases hlen : oplen (classify s.opTag) = 0
  · rw [if_pos hlen, if_neg (mt (multiByte_iff_oplen _).1 (not_not.2 hlen))]; exact raise_raised _ _
  · rw [if_neg hlen, if_pos ((multiByte_iff_oplen _).2 hlen)]; exact raise_raised _ _

/-! ### An opcode byte by byte (R148) -/

/-- `v` is `s` with `bs` on offer, apart from the registers of the opcode in flight and what the host was told and wants. -/
def Pending (s v : State) (bs : List Byte) : Prop :=
  v = { s with
    opBusy := v.opBusy, opTag := v.opTag, opNread := v.opNread, scratch := v.scratch, result := v.result, host := v.host,
    stream := bs }

theorem gather_idle {s : State} (hp : s.phase = .parsingOp) (hb : s.opBusy = false) (b : Byte) (n : Nat) :
    gather b n s = returnEvent (.needMore n) (gatherTag b s) := by
  simp [gather, nextItem_op hp, hb]

theorem gather_busy {s : State} (hp : s.phase = .parsingOp) (hb : s.opBusy = true) (b : Byte) (n : Nat) :
    gather b n s = returnEvent (.needMore n) (gatherOperand b s) := by
  simp [gather, nextItem_op hp, hb]

/-- Taking one more byte of an opcode, not the last, leaves everything but the registers in flight. -/
theorem Pending.gather {s v : State} {bs : List Byte} (h : Pending s v bs) (hp : v.phase = .parsingOp) (b : Byte) (n : Nat)
    (bs' : List Byte) : Pending s (gather b n (v.taken bs' [])) bs' := by
  cases hb : v.opBusy with
  | false => rw [gather_idle (s := v.taken bs' []) hp hb, h]; rfl
  | true => rw [gather_busy (s := v.taken bs' []) hp hb, h]; rfl

/-- The first places of the scratch buffer after a write behind them (R28). -/
theorem scratchSet_take (m : Scratch) {i : Nat} (hi : i < 4) (b : Byte) :
    (scratchSet m i b).toList.take (i + 1) = m.toList.take i ++ [b] := by
  rw [scratchSet, Vector.toList_setIfInBounds, List.take_add_one, List.take_set_of_le le_rfl, List.getElem?_set_self (by simpa using hi)]
  rfl

/-- The bytes in flight after one more that does not complete the opcode (R26, R28). -/
theorem inFlight_gather {s : State} (hp : s.phase = .parsingOp) {b : Byte} (hlen : (inFlight s).length < 4) (n : Nat) :
    inFlight (gather b n s) = inFlight s ++ [b] := by
  cases hb : s.opBusy with
  | false =>
    rw [gather_idle hp hb, inFlight_idle hp hb, inFlight_busy (s := returnEvent _ (gatherTag b s)) hp rfl]
    rfl
  | true =>
    rw [inFlight_busy hp hb] at hlen ⊢
    have hn : s.opNread.toNat < 3 := by simp at hlen; omega
    have hnext : (s.opNread + 1).toNat = s.opNread.toNat + 1 := by
      rw [BitVec.toNat_add]
      exact Nat.mod_eq_of_lt (show s.opNread.toNat + 1 < 2 ^ 3 by omega)
    rw [gather_busy hp hb, inFlight_busy (s := returnEvent _ (gatherOperand b s)) hp hb, returnEvent_scratch, returnEvent_opNread,
      gatherOperand_scratch, gatherOperand_opNread, hnext, scratchSet_take _ (by omega)]
    rfl

/-- What an opcode makes depends on none of the registers in flight (R109). -/
theorem Pending.opcodeResult {s v : State} {bs : List Byte} (h : Pending s v bs) (i : Instr) :
    opcodeResult i v = opcodeResult i s := by
  rw [h]
  cases i <;> rfl

/-- The Finished check reads no scratch byte (R141). -/
theorem finishedCheck_withScratch (s : State) (m : Scratch) :
    finishedCheck { s with scratch := m } = { finishedCheck s with scratch := m } := by
  rcases finishedCheck_cases s with ⟨hp, hc, h⟩ | ⟨hn, h⟩
  · rw [h, finishedCheck_fires (s := { s with scratch := m }) hp hc]; rfl
  · rw [h]
    by_cases hp : s.phase = .parsingOp
    · exact finishedCheck_owing (s := { s with scratch := m }) (hn hp)
    · exact finishedCheck_other (s := { s with scratch := m }) hp

/-- A completed opcode overwrites the registers in flight, all but the scratch bytes (R139). -/
theorem Pending.emit {s v : State} {bs : List Byte} (h : Pending s v bs) (p : Pixel) (m : Cache) (k : Nat) (rest : List Byte) :
    emit k { v.taken rest [] with px := p, cache := m } =
      { emit k { s with stream := rest, host := [], px := p, cache := m } with scratch := v.scratch } := by
  rw [h]
  rfl

/-- From Idle in `s`, with the opcode `i` and then `rest` on offer, `v` has taken the first `k` bytes of the opcode. -/
structure OpcodeTaken (i : Instr) (s : State) (rest : List Byte) (k : Nat) (v : State) : Prop where
  pending : Pending s v ((encode i).drop k ++ rest)
  inFlight : inFlight v = (encode i).take k

section
variable {i : Instr} {s v : State} {rest : List Byte} {k : Nat}

theorem opcodeTaken_idle (hp : s.phase = .parsingOp) (hb : s.opBusy = false) (hs : s.stream = encode i ++ rest) :
    OpcodeTaken i s rest 0 s where
  pending := by rw [Pending, List.drop_zero, ← hs]
  inFlight := inFlight_idle hp hb

theorem OpcodeTaken.stream (h : OpcodeTaken i s rest k v) (hk : k < (encode i).length) :
    v.stream = (encode i)[k] :: ((encode i).drop (k + 1) ++ rest) := by
  rw [h.pending, List.drop_eq_getElem_cons hk]
  rfl

/-- The decoder sees the first `k + 1` bytes of the opcode when the next one is offered. -/
theorem OpcodeTaken.decode (h : OpcodeTaken i s rest k v) (hp : v.phase = .parsingOp) (hk : k < (encode i).length) :
    decode (nextItem v) (Machine.inFlight v ++ [(encode i)[k]]) = decode .opcode ((encode i).take (k + 1)) := by
  rw [nextItem_op hp, h.inFlight, List.take_concat_get' _ _ hk]

/-- No opcode has more than five bytes (R70). -/
theorem encode_length_le (hi : i.item = .opcode) : (encode i).length ≤ 5 := by
  cases i with
  | rgb | rgba | index | diff | luma | run => simp [encode]
  | hdrMagic | hdrWidth | hdrHeight | hdrChannels | hdrColorspace => cases hi

variable (hw : i.wf = true) (hi : i.item = .opcode) (hp : s.phase = .parsingOp) (hit : s.itCount = 0)
include hw hi hp hit

/-- A byte of the opcode that is not its last is taken, and waits (R132 to R135). -/
theorem OpcodeTaken.next (howed : s.pxCount ≠ s.pxTarget) (h : OpcodeTaken i s rest k v) (hk : k + 1 < (encode i).length) :
    ∃ w, promptRun 1 v = some (w, []) ∧ OpcodeTaken i s rest (k + 1) w := by
  have hk' : k < (encode i).length := by omega
  have hpv : v.phase = .parsingOp := by rw [h.pending]; exact hp
  have hitv : v.itCount = 0 := by rw [h.pending]; exact hit
  have hlen : (Machine.inFlight v).length < 4 := by
    have hfive := encode_length_le hi
    rw [h.inFlight, List.length_take]
    omega
  have hpending := h.pending.gather hpv (encode i)[k] ((encode i).length - (k + 1)) ((encode i).drop (k + 1) ++ rest)
  have hwaits := (h.decode hpv hk').trans (opcodePrefixesAwaitTheRest i (k + 1) hw hi (by omega) hk)
  have hbyte := takeByte_needMore (s := v.taken ((encode i).drop (k + 1) ++ rest) []) hwaits
  rw [finishedCheck_owing (by rw [hpending]; exact howed)] at hbyte
  refine ⟨_, promptRun_byte (h.stream hk') hitv (.inr (.inr hpv)) (takeByte_inv (.inr (.inr hpv)) hbyte), hpending, ?_⟩
  rw [inFlight_gather (s := v.taken _ _) hpv hlen, ← List.take_concat_get' _ _ hk', ← h.inFlight]
  rfl

/-- The bytes of the opcode before its last are taken one by one. -/
theorem promptRun_opcode (howed : s.pxCount ≠ s.pxTarget) (hb : s.opBusy = false) (hs : s.stream = encode i ++ rest)
    (hk : k < (encode i).length) : ∃ v, promptRun k s = some (v, []) ∧ OpcodeTaken i s rest k v := by
  induction k with
  | zero => exact ⟨s, rfl, opcodeTaken_idle hp hb hs⟩
  | succ k ih =>
    obtain ⟨v, hrun, hv⟩ := ih (by omega)
    obtain ⟨w, hone, hw'⟩ := hv.next hw hi hp hit howed hk
    exact ⟨w, promptRun_trans hrun hone, hw'⟩

/-- The last byte of the opcode completes it (R135, R137). -/
theorem OpcodeTaken.last (h : OpcodeTaken i s rest k v) (hk : k + 1 = (encode i).length) {p : Pixel} {m : Cache} {n : Nat}
    (hr : opcodeResult i s = some (p, m, n)) :
    promptRun 1 v = some (finishedCheck (emit n { v.taken rest [] with px := p, cache := m }), []) := by
  have hk' : k < (encode i).length := by omega
  have hpv : v.phase = .parsingOp := by rw [h.pending]; exact hp
  have hitv : v.itCount = 0 := by rw [h.pending]; exact hit
  have hstream := h.stream hk'
  have hd := h.decode hpv hk'
  rw [hk, List.drop_length, List.nil_append] at hstream
  rw [hk, List.take_length, nextItem_op hpv, ← hi, decodeEncodeRoundTrip i hw, hi] at hd
  rw [← h.pending.opcodeResult i] at hr
  exact promptRun_byte hstream hitv (.inr (.inr hpv)) (.complete (s := v.taken rest []) i p m n hpv hd hr)

end

/-- Settles O35: every byte but the last leaves `Pending`, and the opcode the last one completes overwrites the registers in flight,
all but scratch. -/
theorem opcodeResumesByteByByte : Obligations.OpcodeResumesByteByByte := by
  intro i s rest hw hi hinv hp hb hit hs
  have howed : s.pxCount ≠ s.pxTarget := fun e => absurd (hinv.opOwes hp) (by rw [e]; exact lt_irrefl _)
  have hprefix {k : Nat} (hk : k < (encode i).length) := promptRun_opcode hw hi hp hit howed hb hs hk
  obtain ⟨p, m, n, hr⟩ := opcodeResult_isSome s hi
  obtain ⟨k, hk⟩ : ∃ k, k + 1 = (encode i).length := by
    obtain ⟨t, ops, he, -⟩ := encode_opcode hw hi
    exact ⟨ops.length, by rw [he]; rfl⟩
  obtain ⟨v, hrun, hv⟩ := hprefix (k := k) (by omega)
  refine ⟨_, _, hk ▸ promptRun_trans hrun (hv.last hw hi hp hit hk hr),
    exec_opcode (s := { s with stream := rest, host := [] }) hr, ?_, fun j hj => ?_⟩
  · rw [finishedCheck_scratch, hv.pending.emit, finishedCheck_withScratch]
  · obtain ⟨w, hrunw, hw'⟩ := hprefix hj
    refine ⟨w, hrunw, ?_, ?_, ?_, ?_⟩ <;> rw [hw'.pending]
    exact hp

end Sys2Proof.Machine
end

section
/-! Finished and Aborted (R141 to R144), and the count of the pixels emitted (R138, R140). -/

namespace Sys2Proof.Machine

/-! ### Finished -/

/-- What R141 says of a state after a `FEED`: in ParsingOp pixels are owed; in Finished none are, the machine is Idle, and the event is
that of the byte. -/
structure State.ExactlyFinished (s : State) : Prop where
  owing : s.phase = .parsingOp → s.pxCount ≠ s.pxTarget
  reached : s.phase = .finished → s.pxCount = s.pxTarget
  idle : s.phase = .finished → s.opBusy = false ∧ s.opTag = 0 ∧ s.opNread = 0
  event : s.phase = .finished → s.result ≠ some (.event .finished)

/-- In the header, and in Aborted, nothing is claimed. -/
theorem exactlyFinished_of_other {s : State} (h : s.phase = .parsingHeader ∨ s.phase = .aborted) : s.ExactlyFinished := by
  constructor <;> rcases h with h | h <;> simp [h]

/-- The Finished check makes it so, whatever the count (R141). -/
theorem exactlyFinished_finishedCheck {s : State} (hp : s.phase = .parsingOp) (he : s.result ≠ some (.event .finished)) :
    (finishedCheck s).ExactlyFinished := by
  rcases finishedCheck_cases s with ⟨-, hc, h⟩ | ⟨hn, h⟩ <;> rw [h]
  · exact ⟨by simp, fun _ => hc, fun _ => ⟨rfl, rfl, rfl⟩, fun _ => he⟩
  · exact ⟨hn, by simp [hp], by simp [hp], by simp [hp]⟩

/-- Every byte of the opcode stream ends in the Finished check; a byte before it stays in the header, or an error is raised. -/
theorem exactlyFinished_byteEffect {b : Byte} {s t : State} (h : ByteEffect b s t) : t.ExactlyFinished := by
  cases h with
  | magicBad | channelsBad | colorspaceBad | illegal => exact exactlyFinished_of_other (.inr rfl)
  | magicOk => exact exactlyFinished_of_other (.inl rfl)
  | gathered _ _ hp | width _ hp | height _ hp | channelsOk hp => exact exactlyFinished_of_other (.inl hp)
  | colorspaceOk => exact exactlyFinished_finishedCheck rfl (by simp)
  | tag hp | operand hp | complete _ _ _ _ hp => exact exactlyFinished_finishedCheck hp (by simp)

/-- Settles O36, by the inversion of a byte. -/
theorem finishedExactlyAtTarget : Obligations.FinishedExactlyAtTarget := by
  intro s t b bs ops hf hnf hst _
  rcases takes_or s with ht | hp | hp
  · obtain ⟨howing, hreached, hidle, hevent⟩ := exactlyFinished_byteEffect (feeds_inv hf ht hst)
    refine ⟨howing, fun hfin => ?_⟩
    obtain ⟨hb, htag, hn⟩ := hidle hfin
    exact ⟨hreached hfin, hb, htag, hn, hevent hfin⟩
  · exact absurd hp hnf
  · rw [step_feeds hf, feed_aborted (s := s.taken bs ops) hp] at hst
    cases hst

/-- Settles O37: in Finished a `FEED` only returns its event. -/
theorem finishedIgnoresBytes : Obligations.FinishedIgnoresBytes := by
  intro s b bs ops hf hp
  rw [step_feeds hf, feed_finished (s := s.taken bs ops) hp]
  rfl

/-! ### Aborted -/

/-- `NEXT()` writes the iterator's count and the result and nothing else (R152). -/
theorem nextPixel_eq (s : State) : nextPixel s = { s with
    itCount := if s.itCount = 0 then s.itCount else s.itCount - 1
    result := some (.yielded (if s.itCount = 0 then none else some s.itPx)) } := by
  unfold nextPixel
  split <;> rfl

/-- Settles O38: the dispatch of `FEED` refuses, `RESET()` starts over, and `NEXT()` leaves the phase. -/
theorem abortedRefusesFeed : Obligations.AbortedRefusesFeed := by
  intro s b bs ops hp
  refine ⟨fun hf => ?_, fun hh => ⟨_, step_reset hh, rfl⟩, fun hh => ⟨_, step_next hh, ?_⟩⟩
  · rw [step_feeds hf, feed_aborted (s := s.taken bs ops) hp]
  · rw [nextPixel_eq]
    exact hp

/-! ### The count (R138, R140) -/

/-- `t` has just emitted pixels, counted from `s`: what a `Pixels` event `it` says of the iterator and the count. -/
structure Emitted (s t : State) (it : Iter) : Prop where
  pos : 1 ≤ it.count.toNat
  le : it.count.toNat ≤ 62
  pixel : it.pixel = t.px
  itCount : t.itCount = it.count
  itPx : t.itPx = it.pixel
  pxCount : t.pxCount.toNat = s.pxCount.toNat + it.count.toNat
  target : t.pxCount.toNat ≤ t.pxTarget.toNat

/-- With a pixel owed, a whole opcode emits what its event says (R104, R138, R140, R156). -/
theorem emitted_complete {s : State} (howed : s.pxCount.toNat < s.pxTarget.toNat) {bs : List Byte} {i : Instr} {p : Pixel} {m : Cache}
    {k : Nat} (hd : decodeOpcode bs = .done i) (hr : opcodeResult i s = some (p, m, k)) :
    Emitted s (finishedCheck (emit k { s with px := p, cache := m })) ⟨BitVec.ofNat 8 k, p⟩ := by
  obtain ⟨hpos, hk, hle⟩ := complete_bounds howed hd hr
  have hbyte : (BitVec.ofNat 8 k).toNat = k := Nat.mod_eq_of_lt (show k < 2 ^ 8 by omega)
  have hcount := emit_count hle
  constructor
  · exact hpos.trans_eq hbyte.symm
  · exact hbyte.trans_le hk
  · simp
  · simp
  · simp
  · rw [finishedCheck_pxCount, hbyte]; exact hcount
  · rw [finishedCheck_pxCount, finishedCheck_pxTarget]; exact hcount.trans_le hle

/-- A byte emits pixels, or it returns another event and counts none, or it raises an error. -/
theorem byteEffect_emits {b : Byte} {s t : State} (h : ByteEffect b s t)
    (howed : s.phase = .parsingOp → s.pxCount.toNat < s.pxTarget.toNat) :
    (∃ it, t.result = some (.event (.pixels it)) ∧ Emitted s t it) ∨
    ((∀ it, t.result ≠ some (.event (.pixels it))) ∧ (t.pxCount = s.pxCount ∨ ∃ e, t.result = some (.error e))) := by
  cases h with
  | magicBad | channelsBad | colorspaceBad | illegal => exact .inr ⟨by simp, .inr ⟨_, rfl⟩⟩
  | magicOk | gathered | width | height | channelsOk => exact .inr ⟨by simp, .inl rfl⟩
  | colorspaceOk | tag | operand => exact .inr ⟨by simp, .inl (finishedCheck_pxCount _)⟩
  | complete i p m k hp hd hr => exact .inl ⟨_, finishedCheck_result _, emitted_complete (howed hp) hd hr⟩

/-- Settles O46, by the inversion of a step: only a byte taken returns `Pixels` or moves the count, but for the resets. -/
theorem countFollowsPixelsEmitted : Obligations.CountFollowsPixelsEmitted := by
  intro s t hinv hst
  cases step_inv hst with
  | idle | empty | yielded | held | noByte | finished => exact ⟨by simp, fun _ _ _ _ => rfl⟩
  | reset ops hh => exact ⟨by simp, fun _ _ hnr _ => absurd (by rw [hh]; rfl) hnr⟩
  | powerOn ops hh => exact ⟨by simp [powerOn], fun _ _ _ hnp => absurd (by rw [hh]; rfl) hnp⟩
  | byte b bs ops _ hf ht he =>
    obtain ⟨it, hit, hem⟩ | ⟨hno, hcount⟩ := byteEffect_emits he hinv.opOwes
    · refine ⟨fun it' hit' => ?_, fun hno => absurd hit (hno it)⟩
      rw [hit] at hit'
      cases hit'
      obtain ⟨hpos, hle, hpx, hic, hipx, hpc, htarget⟩ := hem
      exact ⟨hpos, hle, hpx, hic, hipx, hpc, htarget⟩
    · refine ⟨fun it hit => absurd hit (hno it), fun _ hne _ _ => hcount.resolve_right ?_⟩
      rintro ⟨e, he⟩
      exact hne e he

end Sys2Proof.Machine
end

section
/-! The signal level (R149): a clock cycle in terms of the operations, and what the output ports show. -/

namespace Sys2Proof.Machine

/-! ### One clock cycle -/

theorem pxValid_iff (s : State) : pxValid s = true ↔ s.itCount ≠ 0 := bne_iff_ne

theorem inReady_iff (s : State) : inReady s = true ↔ s.itCount = 0 ∧ s.phase ≠ .aborted := by
  simp [inReady, State.aborted]

theorem cycle_rst {p : PortsIn} (h : p.rst = true) (s : State) : cycle p s = .next (powerOn { s with result := none }) := by
  simp [cycle, h]

/-- `RESET()` overwrites the result of a `NEXT()` in the same cycle and keeps the count it has lowered (log 21). -/
theorem cycle_softReset {p : PortsIn} (hr : p.rst = false) (hs : p.softReset = true) (s : State) :
    cycle p s = .next
      { resetDecoder s with itCount := if s.itCount ≠ 0 ∧ p.pxReady = true then s.itCount - 1 else s.itCount } := by
  have htake : (pxValid s && p.pxReady) = true ↔ s.itCount ≠ 0 ∧ p.pxReady = true := by rw [Bool.and_eq_true, pxValid_iff]
  by_cases h : s.itCount ≠ 0 ∧ p.pxReady = true
  · rw [if_pos h, cycle, if_neg (by simp [hr]), if_pos hs, if_pos (htake.2 h), nextPixel_eq, if_neg h.1]
    rfl
  · rw [if_neg h, cycle, if_neg (by simp [hr]), if_pos hs, if_neg (mt htake.1 h)]
    rfl

section
variable {p : PortsIn} {s : State} (hr : p.rst = false) (hs : p.softReset = false)
include hr hs

theorem cycle_next (hi : s.itCount ≠ 0) (hpx : p.pxReady = true) : cycle p s = .next (nextPixel { s with result := none }) := by
  simp [cycle, hr, hs, hpx, (pxValid_iff s).2 hi]

theorem cycle_feed (hin : p.inValid = true) (hi : s.itCount = 0) (hna : s.phase ≠ .aborted) :
    cycle p s = feed p.inByte { s with result := none } := by
  have hpv : pxValid s = false := Bool.eq_false_iff.2 fun h => (pxValid_iff s).1 h hi
  simp [cycle, hr, hs, hpv, hin, (inReady_iff s).2 ⟨hi, hna⟩]

theorem cycle_held (hi : s.itCount ≠ 0) (hpx : p.pxReady = false) : cycle p s = .next { s with result := none } := by
  have hrd : inReady s = false := Bool.eq_false_iff.2 fun h => hi ((inReady_iff s).1 h).1
  simp [cycle, hr, hs, hpx, hrd]

theorem cycle_quiet (hi : s.itCount = 0) (hin : p.inValid = false ∨ s.phase = .aborted) :
    cycle p s = .next { s with result := none } := by
  have hpv : pxValid s = false := Bool.eq_false_iff.2 fun h => (pxValid_iff s).1 h hi
  have hrd : (p.inValid && inReady s) = false := by
    rcases hin with h | h <;> simp [h, inReady, State.aborted]
  simp [cycle, hr, hs, hpv, hrd]

end

/-- A byte taken presents an event or an error (R145, R170). -/
theorem evValid_of_effect {b : Byte} {s t : State} (h : ByteEffect b s t) : evValid t = true := by
  cases h <;> simp [evValid]

/-- `FEED` outside Aborted answers a next state, which presents an event or an error. -/
theorem feed_presents {s : State} (h : s.phase ≠ .aborted) (b : Byte) : ∃ t, feed b s = .next t ∧ evValid t = true := by
  rcases takes_or s with ht | hp | hp
  · obtain ⟨t, hb, he⟩ := takeByte_effect ht b
    exact ⟨t, (feed_takes ht b).trans hb, evValid_of_effect he⟩
  · exact ⟨_, feed_finished hp b, rfl⟩
  · exact absurd hp h

theorem Pixel.pack_toNat (p : Pixel) :
    (Pixel.pack p).toNat = p.r.toNat * 2 ^ 24 + p.g.toNat * 2 ^ 16 + p.b.toNat * 2 ^ 8 + p.a.toNat := be32_toNat p.r p.g p.b p.a

/-- Counting an iterator that holds pixels down by one does not wrap (R152). -/
theorem count_pred_toNat {c : BitVec 8} (h : c ≠ 0) : (c - 1).toNat = c.toNat - 1 := by
  have hpos : 1 ≤ c.toNat := Nat.one_le_iff_ne_zero.2 fun e => h (BitVec.eq_of_toNat_eq e)
  exact BitVec.toNat_sub_of_le (by simpa [BitVec.le_def] using hpos)

/-- Settles O58: each branch of the cycle is the operation the host would start. -/
theorem clockCyclePerformsOperations : Obligations.ClockCyclePerformsOperations := by
  intro p s
  refine ⟨fun hr => ?_, fun hr hs => ?_, fun hr hs hi hpx => ?_, fun hr hs hin hi hna => ?_, cycle_held, cycle_quiet,
    Pixel.pack_toNat s.itPx⟩
  · exact ⟨_, cycle_rst hr s, step_powerOn rfl⟩
  · refine ⟨_, _, cycle_softReset hr hs s, step_reset rfl, rfl, ?_⟩
    dsimp only
    split
    case isTrue h => exact count_pred_toNat h.1
    case isFalse => rfl
  · refine ⟨_, cycle_next hr hs hi hpx, step_next rfl, ?_⟩
    rw [nextPixel_eq]
    exact congrArg (fun o => some (Result.yielded o)) (if_neg hi)
  · obtain ⟨t, ht, hev⟩ := feed_presents (s := { s with result := none }) hna p.inByte
    refine ⟨t, (cycle_feed hr hs hin hi hna).trans ht, ?_, hev⟩
    exact (step_feeds (s := { s with host := .feed :: s.host, stream := p.inByte :: s.stream }) ⟨rfl, rfl, hi⟩).trans ht

/-! ### The output ports -/

/-- The phase port shows the phase by its code (R24). -/
theorem phasePort_code (s : State) :
    [Phase.notStarted, .parsingHeader, .parsingOp, .finished, .aborted][(phasePort s).toNat]? = some s.phase := by
  rw [phasePort]
  cases s.phase <;> rfl

theorem evValid_iff (s : State) : evValid s = true ↔ (∃ e, s.result = some (.event e)) ∨ ∃ e, s.result = some (.error e) := by
  unfold evValid
  split <;> simp [*]

section
variable {s : State}

theorem evErr_event {e : Event} (h : s.result = some (.event e)) : evErr s = false := by simp only [evErr, h]

theorem evErr_error {e : Err} (h : s.result = some (.error e)) : evErr s = true := by simp only [evErr, h]

theorem evCode_event {e : Event} (h : s.result = some (.event e)) : (evCode s).toNat = e.code.toNat := by simp only [evCode, h]

theorem evCode_error {e : Err} {c : BitVec 4} (h : s.result = some (.error e)) (hc : e.code = some c) :
    (evCode s).toNat = c.toNat := by
  simp only [evCode, h, hc, Option.getD_some]

/-- The low half of `ev_arg` is the error's `{pos, got}` (R149). -/
theorem evArg_error {e : Err} (h : s.result = some (.error e)) : (evArg s).toNat % 2 ^ 16 = (errArg s.draw e).toNat := by
  have hlt := (errArg s.draw e).isLt
  simp only [evArg, h]
  rw [append_toNat]
  omega

/-- The low byte of `ev_arg` is the low byte of `{pos, got}`. -/
theorem evArg_error_got {e : Err} {pos got : Byte} (h : s.result = some (.error e)) (he : errArg s.draw e = pos ++ got) :
    (evArg s).toNat % 2 ^ 8 = got.toNat := by
  have hlow := evArg_error h
  rw [he, append_toNat] at hlow
  have hlt := got.isLt
  omega

end

/-- Settles O59, port by port. -/
theorem outputPortsShowState : Obligations.OutputPortsShowState := by
  intro s
  refine ⟨inReady_iff s, pxValid_iff s, phasePort_code s, evValid_iff s, fun _ => evErr_event, fun _ => evErr_error,
    fun n hn h => ⟨evCode_event h, ?_⟩, fun _ => evCode_event, fun _ h => ⟨evCode_event h, by simp only [evArg, h]⟩,
    fun _ h => ⟨evCode_event h, by simp only [evArg, h]⟩, evCode_event, evCode_event, evCode_event,
    fun pos got h => ⟨evCode_error h rfl, ?_⟩, fun _ h => ⟨evCode_error h rfl, evArg_error_got h rfl⟩,
    fun _ h => ⟨evCode_error h rfl, evArg_error_got h rfl⟩, fun _ h => ⟨evCode_error h rfl, evArg_error_got h rfl⟩,
    fun got h => ⟨evCode_error h rfl, ?_⟩⟩
  · simp only [evArg, h]
    exact Nat.mod_eq_of_lt hn
  · have hpos : (BitVec.ofNat 8 pos.val).toNat = pos.val := Nat.mod_eq_of_lt (by omega)
    rw [evArg_error h, errArg, append_toNat, hpos]
  · exact (evArg_error_got h rfl).trans (BitVec.toNat_setWidth_of_le (by omega))

end Sys2Proof.Machine
end

section
/-! The pixel iterator (R152, R153, R157): what one `NEXT()` does, what a run of them delivers, and the hold of a `FEED`. -/

namespace Sys2Proof.Machine

/-! ### One `NEXT()` -/

/-- `NEXT()` on an empty iterator yields none (R152). -/
theorem step_next_empty {s : State} {ops : List HostOp} (hh : s.host = .next :: ops) (hi : s.itCount = 0) :
    step s = .next { s with result := some (.yielded none), host := ops } :=
  (step_next hh).trans (congrArg _ (if_pos hi))

/-- `NEXT()` on an iterator that holds pixels yields one of them (R152). -/
theorem step_next_yields {s : State} {ops : List HostOp} (hh : s.host = .next :: ops) (hi : s.itCount ≠ 0) :
    step s = .next { s with itCount := s.itCount - 1, result := some (.yielded (some s.itPx)), host := ops } :=
  (step_next hh).trans (congrArg _ (if_neg hi))

/-- Settles O40: an empty iterator stays as it is, and one that holds pixels counts down without wrapping. -/
theorem nextYieldsAndCountsDown : Obligations.NextYieldsAndCountsDown := by
  intro s ops hh
  by_cases hi : s.itCount = 0
  · exact ⟨_, step_next_empty hh hi, rfl, fun _ => ⟨hi, rfl⟩, fun hne => absurd hi hne⟩
  · have hpos : s.itCount.toNat ≠ 0 := fun h => hi (BitVec.eq_of_toNat_eq h)
    refine ⟨_, step_next_yields hh hi, rfl, fun h0 => absurd h0 hi, fun _ => ⟨?_, rfl⟩⟩
    rw [count_pred_toNat hi]
    omega

/-! ### A run of `NEXT()` -/

/-- Once empty, the iterator yields none for ever, and no register changes (R153). -/
theorem runOut_next_empty (j : Nat) {s : State} {ops : List HostOp} (hi : s.itCount = 0)
    (hh : s.host = List.replicate j .next ++ ops) :
    runOut j s = some ({ s with result := if j = 0 then s.result else some (.yielded none), host := ops }, []) := by
  induction j generalizing s with
  | zero =>
    have hops : s.host = ops := hh
    subst hops
    rfl
  | succ j ih =>
    rw [runOut_succ j (step_next_empty hh hi), ih]
    · simp [State.delivered]
    · exact hi
    · rfl

/-- Settles O41, by induction on the count: each `NEXT()` delivers one pixel and leaves an iterator of one fewer; the empty one is
`runOut_next_empty`. -/
theorem iteratorYieldsExactlyItsCount : Obligations.IteratorYieldsExactlyItsCount := by
  intro s j ops hh
  generalize hk : s.itCount.toNat = k at hh ⊢
  induction k generalizing s with
  | zero =>
    have hi : s.itCount = 0 := BitVec.eq_of_toNat_eq hk
    rw [Nat.zero_add] at hh ⊢
    exact ⟨_, runOut_next_empty j hi hh, by rw [← hi], fun hj => if_neg (Nat.pos_iff_ne_zero.1 hj)⟩
  | succ k ih =>
    have hi : s.itCount ≠ 0 := fun h => by simp [h] at hk
    have hdown : (s.itCount - 1).toNat = k := by rw [count_pred_toNat hi, hk, Nat.add_sub_cancel]
    rw [Nat.add_right_comm] at hh ⊢
    have hstep := step_next_yields (ops := List.replicate (k + j) .next ++ ops) hh hi
    obtain ⟨t, hrun, ht, hnone⟩ := ih { s with
      itCount := s.itCount - 1, result := some (.yielded (some s.itPx)), host := List.replicate (k + j) .next ++ ops } hdown rfl
    exact ⟨t, by rw [runOut_succ (k + j) hstep, hrun]; rfl, ht, hnone⟩

/-! ### The hold -/

/-- Settles O39: the attempt is spent and the byte stays first in the stream (log 15). -/
theorem feedHeldWhileIteratorHolds : Obligations.FeedHeldWhileIteratorHolds := fun _ _ => step_held

end Sys2Proof.Machine
end

section
/-! The reference decoder (R160 to R163): what reading one opcode can do, what the loop reads and leaves, and the decode as the loop behind
a legal header. -/

namespace Sys2Proof.Machine

/-! ### One opcode -/

theorem decodeOpcode_encode {i : Instr} (hw : i.wf = true) (hi : i.item = .opcode) : decodeOpcode (encode i) = .done i := by
  have h := decodeEncodeRoundTrip i hw
  rwa [hi] at h

/-- The bytes of a whole opcode are read as it, whatever follows them (R162). -/
theorem readOpcode_encode {i : Instr} (hw : i.wf = true) (hi : i.item = .opcode) (rest : List Byte) :
    readOpcode (encode i ++ rest) = .ok (i, rest) :=
  readOpcode_done (decodeOpcode_encode hw hi)

/-- The bytes end before the opcode they begin, or before its tag. -/
def EndsInOpcode (l : List Byte) : Prop := ∀ t ops, l = t :: ops → ops.length < oplen (classify t)

/-- Everything reading an opcode can do: a whole opcode is in front, or the bytes end before it does (R161, R162, R173). -/
theorem readOpcode_cases (l : List Byte) :
    (∃ i rest, i.wf = true ∧ i.item = .opcode ∧ l = encode i ++ rest) ∨
    (EndsInOpcode l ∧ readOpcode l = .error .shortRead) := by
  match l with
  | [] => exact .inr ⟨nofun, rfl⟩
  | t :: ops =>
    by_cases hl : ops.length < oplen (classify t)
    · exact .inr ⟨fun _ _ h => by cases h; exact hl, readOpcode_short t ops hl⟩
    · obtain ⟨i, hd⟩ := decodeOpcode_whole t (ops.take (oplen (classify t))) (by rw [List.length_take]; omega)
      refine .inl ⟨i, ops.drop (oplen (classify t)), wf_of_decodeOpcode hd, decodeOpcode_item hd, ?_⟩
      rw [encode_of_decodeOpcode hd, List.cons_append, List.take_append_drop]

/-! ### The loop -/

/-- What is put in front of a result shows in its pixels alone. -/
theorem pre_eq_ok {ps out : List Pixel} {rest : List Byte} {x : Except Err (List Pixel × List Byte)} (h : pre ps x = .ok (out, rest)) :
    ∃ o, x = .ok (o, rest) ∧ out = ps ++ o := by
  match x, h with
  | .ok (o, r), h => cases h; exact ⟨o, rfl, rfl⟩

/-- A position that finds too few bytes for its opcode ends the loop with the I/O error (R161). -/
theorem refLoop_short (n : Nat) (p : Pixel) (m : Cache) {l : List Byte} (h : readOpcode l = .error .shortRead) :
    refLoop (n + 1) ⟨p, m, 0⟩ l = .error .shortRead := by
  simp only [refLoop, h]

/-- The loop fills just its positions, reads at most five bytes for each, and does not look at what follows (R163). -/
theorem refLoop_reads {n : Nat} {r : RefState} {l : List Byte} {out : List Pixel} {rest : List Byte}
    (h : refLoop n r l = .ok (out, rest)) :
    out.length = n ∧ ∃ used, l = used ++ rest ∧ used.length ≤ 5 * n ∧ ∀ more, refLoop n r (used ++ more) = .ok (out, more) := by
  induction n generalizing r l out with
  | zero =>
    cases h
    exact ⟨rfl, [], rfl, le_rfl, fun _ => rfl⟩
  | succ n ih =>
    obtain ⟨p, m, _ | k⟩ := r
    · obtain ⟨i, l', hw, hi, rfl⟩ | ⟨-, hshort⟩ := readOpcode_cases l
      · rw [refLoop_op n p m (readOpcode_encode hw hi l')] at h
        obtain ⟨o, ho, rfl⟩ := pre_eq_ok h
        obtain ⟨hlen, used, rfl, hused, hmore⟩ := ih ho
        refine ⟨by simp [hlen], encode i ++ used, by rw [List.append_assoc], ?_, fun more => ?_⟩
        · have hfive := encode_length_le hi
          rw [List.length_append]
          omega
        · rw [List.append_assoc, refLoop_op n p m (readOpcode_encode hw hi _), hmore]
          rfl
      · cases (refLoop_short n p m hshort).symm.trans h
    · rw [refLoop_run_succ] at h
      obtain ⟨o, ho, rfl⟩ := pre_eq_ok h
      obtain ⟨hlen, used, rfl, hused, hmore⟩ := ih ho
      refine ⟨by simp [hlen], used, rfl, by omega, fun more => ?_⟩
      rw [refLoop_run_succ, hmore]
      rfl

/-! ### The header -/

/-- A header parses just when no byte of it is at fault. -/
theorem parse_ok_iff {h : List Byte} (hl : h.length = 14) (hdr : Header) : parse h = .ok hdr ↔
    (∀ k < 14, headerByteErr k (h.getD k 0) = none) ∧ hdr = ⟨headerWord h 4, headerWord h 8, h.getD 12 0, h.getD 13 0⟩ := by
  obtain hok | ⟨c, e, hc, hbad, hfirst⟩ := headerByteErr_first h
  · rw [parse_eq_ok hl hok, Except.ok.injEq, eq_comm, and_iff_right hok]
  · rw [parse_eq_error hl hc hfirst hbad]
    exact ⟨nofun, fun ⟨hok, _⟩ => by cases (hok c hc).symm.trans hbad⟩

/-- The parse of 14 bytes never runs out of them (R96, R171). -/
theorem parse_ne_shortRead {h : List Byte} (hl : h.length = 14) : parse h ≠ .error .shortRead := by
  obtain hok | ⟨c, e, hc, hbad, hfirst⟩ := headerByteErr_first h
  · rw [parse_eq_ok hl hok]
    nofun
  · rw [parse_eq_error hl hc hfirst hbad]
    obtain ⟨-, -, rfl⟩ | ⟨-, -, rfl⟩ | ⟨-, -, rfl⟩ := headerByteErr_eq_some hc hbad <;> nofun

/-! ### The decode -/

theorem readBytes_append {n : Nat} {h : List Byte} (hl : h.length = n) (rest : List Byte) : readBytes n (h ++ rest) = .ok (h, rest) := by
  rw [readBytes, if_neg (by simp [hl]), List.take_left' hl, List.drop_left' hl]

/-- Fewer than 14 bytes are an I/O error (R161, R162). -/
theorem decodeRef_short {s : List Byte} (h : s.length < 14) : decodeRef s = .error .shortRead := by
  rw [decodeRef, readBytes, if_pos h]

/-- A header that does not parse ends the decode with its error (R162). -/
theorem decodeRef_badHeader {h : List Byte} {e : Err} (hl : h.length = 14) (hp : parse h = .error e) (rest : List Byte) :
    decodeRef (h ++ rest) = .error e := by
  simp only [decodeRef, readBytes_append hl, hp]

/-- Behind a header that parses the decode is the loop over the image's positions (R162). -/
theorem decodeRef_header {h : List Byte} {hdr : Header} (hl : h.length = 14) (hp : parse h = .ok hdr) (rest : List Byte) :
    decodeRef (h ++ rest) = (refLoop hdr.pixels RefState.start rest).map fun r => (hdr, r) := by
  simp only [decodeRef, readBytes_append hl, hp]
  rcases refLoop hdr.pixels RefState.start rest with e | ⟨out, left⟩ <;> rfl

/-- A stream of 14 bytes and more is its header and the opcodes behind it (R51). -/
theorem exists_header {s : List Byte} (h : 14 ≤ s.length) : ∃ hd body, hd.length = 14 ∧ s = hd ++ body :=
  ⟨s.take 14, s.drop 14, List.length_take_of_le h, (List.take_append_drop 14 s).symm⟩

/-- A decode that succeeds has a legal header and a loop that succeeds behind it. -/
theorem decodeRef_ok {s : List Byte} {hdr : Header} {out : List Pixel} {rest : List Byte} (h : decodeRef s = .ok (hdr, out, rest)) :
    ∃ hd body, s = hd ++ body ∧ hd.length = 14 ∧ parse hd = .ok hdr ∧ refLoop hdr.pixels RefState.start body = .ok (out, rest) := by
  by_cases hlen : s.length < 14
  · cases (decodeRef_short hlen).symm.trans h
  obtain ⟨hd, body, hl, rfl⟩ := exists_header (not_lt.1 hlen)
  cases hp : parse hd with
  | error e => cases (decodeRef_badHeader hl hp body).symm.trans h
  | ok hdr' =>
    rw [decodeRef_header hl hp] at h
    cases hloop : refLoop hdr'.pixels RefState.start body with
    | error e => rw [hloop] at h; cases h
    | ok r => rw [hloop] at h; cases h; exact ⟨hd, body, rfl, hl, hp, hloop⟩

/-- Where 14 bytes and more are too few for the reference, its header parses and its loop fails. -/
theorem decodeRef_shortRead {s : List Byte} (hlen : 14 ≤ s.length) (h : decodeRef s = .error .shortRead) :
    ∃ hd body hdr, s = hd ++ body ∧ hd.length = 14 ∧ parse hd = .ok hdr ∧ refLoop hdr.pixels RefState.start body = .error .shortRead := by
  obtain ⟨hd, body, hl, rfl⟩ := exists_header hlen
  cases hp : parse hd with
  | error e =>
    cases (decodeRef_badHeader hl hp body).symm.trans h
    exact absurd hp (parse_ne_shortRead hl)
  | ok hdr =>
    rw [decodeRef_header hl hp] at h
    cases hloop : refLoop hdr.pixels RefState.start body with
    | error e => rw [hloop] at h; cases h; exact ⟨hd, body, hdr, rfl, hl, hp, hloop⟩
    | ok r => rw [hloop] at h; cases h

/-- Settles O53: the header is 14 bytes, and the loop behind it fills its positions as `refLoop_reads` says. -/
theorem referenceFillsExactly : Obligations.ReferenceFillsExactly := by
  intro s hdr out rest h
  obtain ⟨hd, body, rfl, hl, hp, hloop⟩ := decodeRef_ok h
  obtain ⟨hlen, used, rfl, hused, hmore⟩ := refLoop_reads hloop
  refine ⟨hlen, hd ++ used, by rw [List.append_assoc], ?_, ?_, fun more => ?_⟩
  · rw [List.length_append]; omega
  · rw [List.length_append]; omega
  · rw [List.append_assoc, decodeRef_header hl hp, hmore]
    rfl

end Sys2Proof.Machine
end

section
/-! Runs of the prompt host (R199): what they keep, how they drain the iterator, and how far they come on bytes that end early (R146,
R168). -/

namespace Sys2Proof.Machine

/-! ### What every run keeps, and the drain -/

/-- A run of one step and more of the prompt host, taken apart. -/
theorem promptRun_succ_inv {n : Nat} {s t : State} {out : List Pixel} (h : promptRun (n + 1) s = some (t, out)) :
    ∃ u out', step { s with host := [promptOp s] } = .next u ∧ promptRun n u = some (t, out') := by
  cases hs : step { s with host := [promptOp s] } with
  | next u =>
    rw [promptRun_succ n hs, Option.map_eq_some_iff] at h
    obtain ⟨⟨t', out'⟩, hr, he⟩ := h
    cases he
    exact ⟨u, out', rfl, hr⟩
  | fault r => cases r
  | refused r => simp [promptRun, hs] at h

/-- The prompt host's runs keep the machine invariant (R34). -/
theorem promptRun_keeps_inv {n : Nat} {s t : State} {out : List Pixel} (hs : s.Inv) (h : promptRun n s = some (t, out)) : t.Inv := by
  induction n generalizing s out with
  | zero => cases h; exact hs
  | succ n ih =>
    obtain ⟨u, out', hstep, hrun⟩ := promptRun_succ_inv h
    exact ih (stepKeepsInv { s with host := [promptOp s] } u { hs with } hstep) hrun

/-- The prompt host drains the iterator: all its pixels are delivered, and no other register moves (R153, R199). -/
theorem promptRun_drain (s : State) :
    ∃ t, promptRun s.itCount.toNat s = some (t, List.replicate s.itCount.toNat s.itPx) ∧
      t = { s with itCount := 0, result := t.result, host := t.host } := by
  generalize hk : s.itCount.toNat = k
  induction k generalizing s with
  | zero =>
    have hi : s.itCount = 0 := BitVec.eq_of_toNat_eq hk
    exact ⟨s, rfl, by rw [← hi]⟩
  | succ k ih =>
    have hi : s.itCount ≠ 0 := fun h => by simp [h] at hk
    have hdown : (s.itCount - 1).toNat = k := by rw [count_pred_toNat hi, hk, Nat.add_sub_cancel]
    have hstep := step_next_yields (s := { s with host := [promptOp s] }) (congrArg (· :: []) (if_neg hi)) hi
    obtain ⟨t, hrun, ht⟩ := ih { s with itCount := s.itCount - 1, result := some (.yielded (some s.itPx)), host := [] } hdown
    exact ⟨t, by rw [promptRun_succ k hstep, hrun]; rfl, ht⟩

/-- With no byte on offer every operation of the host has its step, and a `FEED` moves no register (R146). -/
theorem waits_of_stream_nil {t : State} (h : t.stream = []) : Waits t := by
  intro op
  cases op with
  | feed => exact ⟨_, step_noByte rfl h, fun _ => rfl⟩
  | next => exact ⟨_, step_next rfl, nofun⟩
  | reset => exact ⟨_, step_reset rfl, nofun⟩
  | powerOn => exact ⟨_, step_powerOn rfl, nofun⟩

/-! ### The bytes end inside an opcode -/

/-- The machine has taken every byte offered, without error, and is owed the rest of the image (R168). -/
structure State.Starved (s : State) : Prop where
  stream : s.stream = []
  empty : s.itCount = 0
  phase : s.phase = .parsingOp
  owes : s.pxCount.toNat < s.pxTarget.toNat

/-- A byte after which its opcode still wants others is taken, and waits (R132 to R135). -/
theorem promptRun_waitingByte {s : State} {b : Byte} {bs : List Byte} {n : Nat} (hs : s.stream = b :: bs) (hit : s.itCount = 0)
    (hp : s.phase = .parsingOp) (hne : s.pxCount ≠ s.pxTarget) (hlen : (inFlight s).length < 4)
    (hd : decodeOpcode (inFlight s ++ [b]) = .needMore n) :
    ∃ v, promptRun 1 s = some (v, []) ∧ Pending s v bs ∧ inFlight v = inFlight s ++ [b] := by
  have hpending : Pending s (gather b n (s.taken bs [])) bs := Pending.gather (s := s) (v := s) (bs := s.stream) rfl hp b n bs
  have hbyte := takeByte_needMore (s := s.taken bs []) (b := b) ((congrArg (decode · _) (nextItem_op hp)).trans hd)
  rw [finishedCheck_owing (by rw [hpending]; exact hne)] at hbyte
  exact ⟨_, promptRun_byte hs hit (.inr (.inr hp)) (takeByte_inv (.inr (.inr hp)) hbyte), hpending,
    inFlight_gather (s := s.taken bs []) hp hlen n⟩

/-- Bytes that end before their opcode does are all taken, and wait (R146, R168). -/
theorem promptRun_endsInOpcode {l : List Byte} {s : State} (hs : s.stream = l) (hit : s.itCount = 0) (hp : s.phase = .parsingOp)
    (howes : s.pxCount.toNat < s.pxTarget.toNat) (hend : EndsInOpcode (inFlight s ++ l)) :
    ∃ t, promptRun l.length s = some (t, []) ∧ t.Starved := by
  induction l generalizing s with
  | nil => exact ⟨s, rfl, hs, hit, hp, howes⟩
  | cons b bs ih =>
    obtain ⟨tag, ops, hcons⟩ : ∃ tag ops, inFlight s ++ [b] = tag :: ops := List.exists_cons_of_ne_nil (by simp)
    have hshort : ops.length + bs.length < oplen (classify tag) := by
      have h := hend tag (ops ++ bs) (by rw [List.append_cons, hcons, List.cons_append])
      rwa [List.length_append] at h
    have hlen : (inFlight s).length < 4 := by
      have hfour : oplen (classify tag) ≤ 4 := by cases classify tag <;> simp [oplen]
      have hops : (inFlight s).length = ops.length := by simpa using congrArg List.length hcons
      omega
    obtain ⟨v, hone, hv, hflight⟩ := promptRun_waitingByte hs hit hp (fun h => howes.ne (congrArg _ h)) hlen
      (hcons ▸ decodeOpcode_short tag ops (by omega))
    obtain ⟨t, hrun, ht⟩ := ih (s := v) (by rw [hv]) (by rw [hv]; exact hit) (by rw [hv]; exact hp) (by rw [hv]; exact howes)
      (by rw [hflight, List.append_assoc]; exact hend)
    exact ⟨t, by rw [List.length_cons, Nat.add_comm]; exact promptRun_trans hone hrun, ht⟩

/-! ### The bytes end inside the header -/

/-- Past the first byte the machine is in ParsingHeader until the last (R25). -/
theorem HeaderTaken.parsingHeader {h : List Byte} {k : Nat} {s : State} (hs : HeaderTaken h k s) (hk0 : k ≠ 0) (hk : k < 14) :
    s.phase = .parsingHeader := by
  rcases hs.inHeader hk with hp | hp
  · exact absurd ((hs.position hk).symm.trans (headerPos_notStarted hp)) hk0
  · exact hp

/-- In a header that ends before its colorspace byte only a magic or channels byte can be at fault (R92, R94). -/
theorem headerByteErr_of_short {s : List Byte} (hl : s.length < 14)
    (hmagic : ∀ k, k < 4 → k < s.length → s.getD k 0 = [0x71, 0x6F, 0x69, 0x66].getD k 0)
    (hchannels : s.length = 13 → s.getD 12 0 = 3 ∨ s.getD 12 0 = 4) {c : Nat} (hc : c < s.length) :
    headerByteErr c (s.getD c 0) = none := by
  obtain h4 | ⟨h4, h12⟩ | rfl : c < 4 ∨ (4 ≤ c ∧ c < 12) ∨ c = 12 := by omega
  · exact (headerByteErr_magic_none h4).2 (hmagic c h4 hc)
  · exact headerByteErr_size h4 h12 _
  · exact headerByteErr_channels_none.2 (hchannels (by omega))

/-- The bytes of a header that ends early are all taken, as long as none is at fault. -/
theorem promptRun_shortHeader {h : List Byte} {k : Nat} (hl : h.length < 14) (hk : k ≤ h.length)
    (hok : ∀ c < k, headerByteErr c (h.getD c 0) = none) :
    ∃ t, promptRun k (State.start h) = some (t, []) ∧ t.stream = h.drop k ∧ HeaderTaken h k t := by
  induction k with
  | zero => exact ⟨_, rfl, rfl, headerTaken_start h h⟩
  | succ k ih =>
    obtain ⟨s, hrun, hr, hs⟩ := ih (by omega) fun c hc => hok c (by omega)
    have hk' : k < 14 := by omega
    have htakes : s.takes := inHeader_takes (hs.inHeader hk')
    have hstream : s.stream = h.getD k 0 :: h.drop (k + 1) := by
      rw [hr, List.drop_eq_getElem_cons hk, List.getD_eq_getElem _ 0 hk]
    obtain ⟨t, -, he⟩ := takeByte_effect (s := s.taken (h.drop (k + 1)) []) htakes (h.getD k 0)
    obtain ⟨-, ht, -⟩ | ⟨e, hbad, -⟩ := (hs.taken _ _).effect hk' he
    · exact ⟨t, promptRun_trans hrun (promptRun_byte hstream hs.empty htakes he), stream_of_effect he, ht⟩
    · cases (hok k (by omega)).symm.trans hbad

end Sys2Proof.Machine
end

section
/-! The streaming machine against the reference (R166 to R168): opcode by opcode the prompt host's run delivers the pixels of the
reference loop; where the bytes end early the machine has taken them all and waits. -/

namespace Sys2Proof.Machine

/-! ### Between two opcodes -/

/-- The machine stands between two opcodes, its iterator drained, where the reference loop stands with last pixel `p`, cache `m`,
`left` positions to fill and the bytes `l` unread; once no position is left it is Finished (R139, R141). -/
structure State.InStep (s : State) (p : Pixel) (m : Cache) (left : Nat) (l : List Byte) : Prop where
  px : s.px = p
  cache : s.cache = m
  stream : s.stream = l
  left : s.pxCount.toNat + left = s.pxTarget.toNat
  empty : s.itCount = 0
  idle : s.opBusy = false
  phase : s.phase = if s.pxCount = s.pxTarget then .finished else .parsingOp

/-- The Finished check, and an iterator drained after it, leave the machine between two opcodes. -/
theorem inStep_of_drained {e t : State} {left : Nat} (ht : t = { finishedCheck e with itCount := 0, result := t.result, host := t.host })
    (hp : e.phase = .parsingOp) (hb : e.opBusy = false) (hleft : e.pxCount.toNat + left = e.pxTarget.toNat) :
    t.InStep e.px e.cache left e.stream := by
  have hidle : (finishedCheck e).opBusy = false := by
    rcases finishedCheck_cases e with ⟨-, -, h⟩ | ⟨-, h⟩ <;> rw [h]
    · rfl
    · exact hb
  rw [ht]
  constructor <;> simp [hidle, hleft, finishedCheck_phase_eq hp]

/-- The same with an iterator that is empty already. -/
theorem inStep_finishedCheck {e : State} {left : Nat} (hi : e.itCount = 0) (hp : e.phase = .parsingOp) (hb : e.opBusy = false)
    (hleft : e.pxCount.toNat + left = e.pxTarget.toNat) : (finishedCheck e).InStep e.px e.cache left e.stream :=
  inStep_of_drained (by rw [← (finishedCheck_itCount e).trans hi]) hp hb hleft

section
variable {s : State} {p : Pixel} {m : Cache} {left : Nat} {l : List Byte}

theorem State.InStep.owed_eq (hs : s.InStep p m left l) : owed s = left := by
  have := hs.left
  rw [owed]
  omega

theorem State.InStep.owes (hs : s.InStep p m left l) (hleft : 0 < left) :
    s.pxCount.toNat < s.pxTarget.toNat ∧ s.pxCount ≠ s.pxTarget ∧ s.phase = .parsingOp := by
  have hlt : s.pxCount.toNat < s.pxTarget.toNat := by have := hs.left; omega
  have hne : s.pxCount ≠ s.pxTarget := fun h => hlt.ne (congrArg _ h)
  exact ⟨hlt, hne, by rw [hs.phase, if_neg hne]⟩

/-- A whole opcode on offer: the machine takes it and delivers its pixels, which are the next of the reference loop (R166). -/
theorem State.InStep.opcode {i : Instr} {rest : List Byte} (hs : s.InStep p m left (encode i ++ rest)) (hleft : 0 < left)
    (hw : i.wf = true) (hi : i.item = .opcode) :
    ∃ n t p' m' k, promptRun n s = some (t, List.replicate k p') ∧ t.InStep p' m' (left - k) rest ∧ t.pxTarget = s.pxTarget ∧ 1 ≤ k ∧
      refLoop left ⟨p, m, 0⟩ (encode i ++ rest) = pre (List.replicate k p') (refLoop (left - k) ⟨p', m', 0⟩ rest) := by
  obtain ⟨hlt, hne, hp⟩ := hs.owes hleft
  obtain ⟨p', m', k, hr⟩ := opcodeResult_isSome s hi
  have hd := decodeOpcode_encode hw hi
  obtain ⟨hk1, hk62, hkle⟩ := complete_bounds hlt hd hr
  obtain ⟨j, hj⟩ : ∃ j, j + 1 = (encode i).length := by
    obtain ⟨t, ops, he, -⟩ := encode_opcode hw hi
    exact ⟨ops.length, by rw [he]; rfl⟩
  obtain ⟨v, hrun, hv⟩ := promptRun_opcode hw hi hp hs.empty hne hs.idle hs.stream (k := j) (by omega)
  have hlast := hv.last hw hi hp hs.empty hj hr
  rw [hv.pending.emit] at hlast
  obtain ⟨t, hdrain, ht⟩ := promptRun_drain
    (finishedCheck { emit k { s with stream := rest, host := [], px := p', cache := m' } with scratch := v.scratch })
  have hk : (BitVec.ofNat 8 k).toNat = k := by rw [BitVec.toNat_ofNat]; omega
  simp only [finishedCheck_itCount, emit_itCount, finishedCheck_itPx, emit_itPx, hk] at hdrain
  have hcount : (s.pxCount + BitVec.ofNat 64 k).toNat + (left - k) = s.pxTarget.toNat := by
    have := hs.left
    rw [emit_count hkle]
    omega
  refine ⟨_, t, p', m', k, promptRun_trans (promptRun_trans hrun hlast) hdrain, inStep_of_drained ht hp rfl hcount, ?_, hk1, ?_⟩
  · rw [ht]; simp
  · have hloop := refLoop_opcode (bs := rest) (by rw [hs.owed_eq]; exact hleft) hd hr
    rwa [hs.owed_eq, hs.px, hs.cache] at hloop

end

/-! ### The whole opcode stream -/

/-- What a run of the prompt host from `s` comes to, by the answer of the reference loop: it ends with the pixels delivered and the
bytes left of that answer (R166, R167); where the loop fails the machine is starved (R168). -/
def State.FollowsLoop (s : State) : Except Err (List Pixel × List Byte) → Prop
  | .ok (out, rest) => ∃ n t, promptRun n s = some (t, out) ∧ t.ended ∧ t.stream = rest ∧ t.pxCount = t.pxTarget ∧
      t.pxTarget = s.pxTarget
  | .error _ => ∃ n t out, promptRun n s = some (t, out) ∧ t.Starved

theorem State.FollowsLoop.prepend {s t : State} {n : Nat} {ps : List Pixel} {x : Except Err (List Pixel × List Byte)}
    (hrun : promptRun n s = some (t, ps)) (htarget : t.pxTarget = s.pxTarget) (h : t.FollowsLoop x) : s.FollowsLoop (pre ps x) := by
  match x, h with
  | .ok (out, rest), ⟨n', u, hrun', hend, hstream, hcount, htarget'⟩ =>
    exact ⟨n + n', u, promptRun_trans hrun hrun', hend, hstream, hcount, htarget'.trans htarget⟩
  | .error e, ⟨n', u, out, hrun', hstarved⟩ => exact ⟨n + n', u, _, promptRun_trans hrun hrun', hstarved⟩

/-- The machine follows the reference loop, opcode by opcode (R166, R168). -/
theorem State.InStep.followsLoop {s : State} {p : Pixel} {m : Cache} {left : Nat} {l : List Byte} (hs : s.InStep p m left l) :
    s.FollowsLoop (refLoop left ⟨p, m, 0⟩ l) := by
  induction left using Nat.strong_induction_on generalizing s p m l with
  | _ left ih =>
    cases left with
    | zero =>
      have hcount : s.pxCount = s.pxTarget := BitVec.eq_of_toNat_eq hs.left
      exact ⟨0, s, rfl, ⟨by rw [hs.phase, if_pos hcount], hs.empty⟩, hs.stream, hcount, rfl⟩
    | succ left =>
      obtain ⟨i, rest, hw, hi, rfl⟩ | ⟨hend, hshort⟩ := readOpcode_cases l
      · obtain ⟨n, t, p', m', k, hrun, ht, htarget, hk, hloop⟩ := hs.opcode (Nat.succ_pos left) hw hi
        rw [hloop]
        exact (ih _ (by omega) ht).prepend hrun htarget
      · obtain ⟨hlt, -, hp⟩ := hs.owes (Nat.succ_pos left)
        rw [refLoop_short left p m hshort]
        obtain ⟨t, hrun, hstarved⟩ := promptRun_endsInOpcode hs.stream hs.empty hp hlt (by rwa [inFlight_idle hp hs.idle])
        exact ⟨_, t, [], hrun, hstarved⟩

/-! ### The header -/

/-- Behind a legal header the machine stands where the reference loop starts (R129, R160, R162). -/
theorem promptRun_wholeHeader {h : List Byte} {hdr : Header} (hl : h.length = 14) (hp : parse h = .ok hdr) (rest : List Byte) :
    ∃ t, promptRun 14 (State.start (h ++ rest)) = some (t, []) ∧ t.InStep Pixel.start Cache.zeros hdr.pixels rest ∧
      t.pxTarget.toNat = hdr.pixels := by
  obtain ⟨hok, rfl⟩ := (parse_ok_iff hl hdr).1 hp
  obtain ⟨s, hrun, hstream, hs, -⟩ := promptRun_header rest hl (by omega : 13 ≤ 14) fun c hc => hok c (by omega)
  have hphase := hs.parsingHeader (by omega) (by omega)
  have hinv : s.Inv := promptRun_keeps_inv (inv_powerOn (State.start (h ++ rest))) hrun
  obtain ⟨hcount, hpx, hcache⟩ := hinv.headerFresh (.inr hphase)
  have htarget : s.pxTarget.toNat = (headerWord h 4).toNat * (headerWord h 8).toNat := by
    rw [hs.target, ← headerTarget_toNat]
    rfl
  have hbyte : s.stream = h.getD 13 0 :: rest := by
    rw [hstream, List.drop_eq_getElem_cons (by omega), List.getD_eq_getElem _ 0 (by omega), List.drop_of_length_le (by omega)]
    rfl
  have hlast := promptRun_byte hbyte hs.empty (.inr (.inl hphase))
    (.colorspaceOk hphase (hs.hdrCnt_eq (by omega) hphase) (headerByteErr_colorspace_none.1 (hok 13 (by omega))))
  refine ⟨_, promptRun_trans hrun hlast, ?_, ?_⟩
  · rw [← hpx, ← hcache]
    exact inStep_finishedCheck hs.empty rfl rfl (by simp [hcount, htarget, Header.pixels])
  · rw [finishedCheck_pxTarget]
    exact htarget

/-- Behind a legal header the machine follows the reference's loop. -/
theorem promptRun_decode {h : List Byte} {hdr : Header} (hl : h.length = 14) (hp : parse h = .ok hdr) {rest : List Byte}
    {x : Except Err (List Pixel × List Byte)} (hloop : refLoop hdr.pixels RefState.start rest = x) :
    ∃ t, promptRun 14 (State.start (h ++ rest)) = some (t, []) ∧ t.FollowsLoop x ∧ t.pxTarget.toNat = hdr.pixels := by
  obtain ⟨t, hrun, ht, htarget⟩ := promptRun_wholeHeader hl hp rest
  exact ⟨t, hrun, hloop ▸ ht.followsLoop, htarget⟩

/-! ### The statements -/

/-- Settles O54: the header parses, and behind it the machine follows the reference loop. -/
theorem streamingMatchesReference : Obligations.StreamingMatchesReference := by
  intro s hdr out rest h
  obtain ⟨hd, body, rfl, hl, hp, hloop⟩ := decodeRef_ok h
  obtain ⟨u, hheader, ⟨n, t, hrun, hend, hstream, hcount, hkeep⟩, htarget⟩ := promptRun_decode hl hp hloop
  refine ⟨_, t, promptRun_trans hheader hrun, hend, hstream, hcount, ?_⟩
  rw [hkeep, htarget, (refLoop_reads hloop).1]

/-- Settles O55: past the header the machine follows the loop that fails; a shorter header is taken byte by byte. -/
theorem truncatedStreamWaits : Obligations.TruncatedStreamWaits := by
  refine fun s => ⟨fun hlen h => ?_, fun hl hmagic hchannels => ⟨decodeRef_short hl, ?_⟩⟩
  · obtain ⟨hd, body, hdr, rfl, hl, hp, hloop⟩ := decodeRef_shortRead hlen h
    obtain ⟨u, hheader, ⟨n, t, out, hrun, ht⟩, -⟩ := promptRun_decode hl hp hloop
    exact ⟨_, t, _, promptRun_trans hheader hrun, ht.stream, ht.empty, ht.phase, ht.owes, waits_of_stream_nil ht.stream⟩
  · obtain ⟨t, hrun, hstream, ht⟩ := promptRun_shortHeader hl le_rfl fun c => headerByteErr_of_short hl hmagic hchannels
    rw [List.drop_length] at hstream
    have hplace : t.phase = (if s.length = 0 then .notStarted else .parsingHeader) ∧ t.hdrCnt.val = s.length := by
      by_cases h0 : s.length = 0
      · rw [h0] at hrun
        cases hrun
        exact ⟨(if_pos h0).symm, h0.symm⟩
      · have hphase := ht.parsingHeader h0 hl
        exact ⟨hphase.trans (if_neg h0).symm, ht.hdrCnt_eq hl hphase⟩
    exact ⟨t, hrun, hstream, ht.empty, hplace.1, hplace.2, waits_of_stream_nil hstream⟩

end Sys2Proof.Machine
end

section
/-! Errors (R170 to R180): which bytes raise one, and that neither Aborted nor Finished is left but by a reset. -/

namespace Sys2Proof.Machine

/-! ### The bytes that raise an error (R172) -/

/-- The bytes at fault are those of the three checks, and each has its error (R122, R127, R129). -/
theorem headerByteErr_eq_some_iff {c : Nat} {b : Byte} {e : Err} (hc : c < 14) : headerByteErr c b = some e ↔
    (c < 4 ∧ b ≠ magicBytes.getD c 0 ∧ e = .badMagic c b) ∨ (c = 12 ∧ ¬ (b = 3 ∨ b = 4) ∧ e = .badChannels b) ∨
    (c = 13 ∧ ¬ (b = 0 ∨ b = 1) ∧ e = .badColorspace b) := by
  refine ⟨headerByteErr_eq_some hc, ?_⟩
  rintro (⟨hm, hb, rfl⟩ | ⟨rfl, hb, rfl⟩ | ⟨rfl, hb, rfl⟩)
  · rw [headerByteErr_magic hm, if_neg hb]
  · rw [headerByteErr_channels, if_neg hb]
  · rw [headerByteErr_colorspace, if_neg hb]

/-- The opcode stream is no part of the header. -/
theorem not_inHeader_of_op {s : State} (hp : s.phase = .parsingOp) : ¬ s.inHeader := by
  simp [State.inHeader, hp]

/-- Where the invariant holds, a byte taken raises the error of the header byte at fault, or it returns an event and no header byte is
at fault; an opcode in flight is never illegal there (R110, R173, R174). -/
theorem byteEffect_raises {b : Byte} {s t : State} (h : ByteEffect b s t) (hs : s.Inv) :
    (∃ e, t.result = some (.error e) ∧ s.inHeader ∧ headerByteErr s.hdrCnt.val b = some e) ∨
    ((∃ v, t.result = some (.event v)) ∧ (s.inHeader → headerByteErr s.hdrCnt.val b = none)) := by
  cases h with
  | magicOk c hh hc hb =>
    rw [headerPos_eq_hdrCnt hs hh] at hc
    exact .inr ⟨⟨_, rfl⟩, fun _ => by rw [hc]; exact (headerByteErr_magic_none c.isLt).2 (hb.trans (magicByte_getD c))⟩
  | magicBad c hh hc hb =>
    rw [headerPos_eq_hdrCnt hs hh] at hc
    exact .inl ⟨_, rfl, hh, by rw [hc]; exact (headerByteErr_magic c.isLt _).trans (if_neg (magicByte_getD c ▸ hb))⟩
  | gathered i hi hp hc => exact .inr ⟨⟨_, rfl⟩, fun _ => headerByteErr_size (by omega) (by omega) _⟩
  | width w hp hc | height w hp hc => exact .inr ⟨⟨_, rfl⟩, fun _ => headerByteErr_size (by omega) (by omega) _⟩
  | channelsOk hp hc hb => exact .inr ⟨⟨_, rfl⟩, fun _ => by rw [hc]; exact headerByteErr_channels_none.2 hb⟩
  | channelsBad hp hc hb => exact .inl ⟨_, rfl, .inr hp, by rw [hc]; exact if_neg hb⟩
  | colorspaceOk hp hc hb =>
    exact .inr ⟨⟨_, finishedCheck_result _⟩, fun _ => by rw [hc]; exact headerByteErr_colorspace_none.2 hb⟩
  | colorspaceBad hp hc hb => exact .inl ⟨_, rfl, .inr hp, by rw [hc]; exact if_neg hb⟩
  | tag hp | operand hp | complete _ _ _ _ hp =>
    exact .inr ⟨⟨_, finishedCheck_result _⟩, fun hh => absurd hh (not_inHeader_of_op hp)⟩
  | illegal hp hb hl => exact absurd ((legalInFlight_iff _ _).1 (hs.opLegal hp hb)) (Nat.not_lt.2 hl)

/-- The errors of a byte taken are those of the header byte at fault. -/
theorem byteEffect_error_iff {b : Byte} {s t : State} (h : ByteEffect b s t) (hs : s.Inv) (e : Err) :
    t.result = some (.error e) ↔ s.inHeader ∧ headerByteErr s.hdrCnt.val b = some e := by
  obtain ⟨e', hr, hh, he⟩ | ⟨⟨v, hr⟩, hnone⟩ := byteEffect_raises h hs
  · simp [hr, hh, he]
  · refine iff_of_false (by simp [hr]) ?_
    rintro ⟨hh, he⟩
    cases (hnone hh).symm.trans he

/-- Settles O47: a byte taken raises the error of the header byte at fault; a byte in Finished raises none, and in Aborted no byte
is taken. -/
theorem onlyBadHeaderBytesRaise : Obligations.OnlyBadHeaderBytesRaise := by
  intro s t b bs ops hs hf hst e
  rcases takes_or s with ht | hp | hp
  · rw [byteEffect_error_iff (s := s.taken bs ops) (feeds_inv hf ht hst) { hs with }, taken_hdrCnt,
      headerByteErr_eq_some_iff s.hdrCnt.isLt, channels_iff, colorspace_iff]
    simp only [not_or, and_assoc]
    exact Iff.rfl
  · rw [step_feeds hf, feed_finished (s := s.taken bs ops) hp] at hst
    cases hst
    exact iff_of_false (by simp) (by simp [State.inHeader, hp])
  · rw [step_feeds hf, feed_aborted (s := s.taken bs ops) hp] at hst
    cases hst

/-! ### What ends a decode for good (R180, R194) -/

/-- In Finished and in Aborted no byte is taken. -/
theorem not_takes_of_ended {s : State} (hp : s.phase = .finished ∨ s.phase = .aborted) : ¬ s.takes := by
  rcases hp with hp | hp <;> simp [State.takes, hp]

/-- Settles O48, by the inversion of a step: what changes a decoder register is a byte taken or a reset, and here no byte is taken. -/
theorem onlyResetLeavesFinishedOrAborted : Obligations.OnlyResetLeavesFinishedOrAborted := by
  intro s t hp hst hnreset hnpower
  cases step_inv hst with
  | idle | empty | yielded | held | noByte | finished => rfl
  | reset ops hh => exact absurd (by rw [hh]; rfl) hnreset
  | powerOn ops hh => exact absurd (by rw [hh]; rfl) hnpower
  | byte b bs ops _ _ ht => exact absurd ht (not_takes_of_ended hp)

end Sys2Proof.Machine
end

section
/-! Reset and power-on (R190, R191), and the liveness of a decode whose host drains first and has bytes enough (R204). -/

namespace Sys2Proof.Machine

/-! ### Reset and power-on -/

/-- A second reset right after a reset takes its operation from the host's script and changes no register (R190). -/
theorem resetDecoder_again (s : State) (ops : List HostOp) :
    resetDecoder { resetDecoder s with host := ops } = { resetDecoder s with host := ops } := rfl

/-- Without the host's side and the free-value counter every power-on state is the one of R20 and R192. -/
theorem powerOn_bare (s : State) : { powerOn s with stream := [], host := [], draw := 0 } = State.reset := rfl

/-- Settles O1: the registers of `resetDecoder` are read off, and resetting twice is resetting once. -/
theorem resetRestoresDecoder : Obligations.ResetRestoresDecoder := by
  intro s ops hh
  refine ⟨_, step_reset hh, rfl, rfl, rfl, rfl, rfl, rfl, cacheRead_zeros, ?scratch, rfl, rfl, rfl, rfl, rfl, rfl, rfl, ?again⟩
  case scratch => exact fun i hi => Vector.getElem_replicate hi
  case again =>
    intro ops' hops
    rw [step_reset hops, resetDecoder_again]

/-- Settles O2, by the two steps: power-on is the reset with an empty iterator. -/
theorem powerOnIsResetWithEmptyIterator : Obligations.PowerOnIsResetWithEmptyIterator :=
  fun s ops hh => ⟨_, _, step_powerOn hh, step_reset rfl, powerOn_eq_resetDecoder { s with host := ops }, powerOn_bare { s with host := ops }⟩

/-! ### What the steps of the prompt host bring -/

/-- The prompt host feeds an empty iterator and drains one that holds pixels (R199). -/
theorem promptOp_cases (s : State) : (promptOp s = .feed ∧ s.itCount = 0) ∨ (promptOp s = .next ∧ s.itCount ≠ 0) := by
  by_cases hi : s.itCount = 0
  · exact .inl ⟨if_pos hi, hi⟩
  · exact .inr ⟨if_neg hi, hi⟩

/-- A step of the prompt host takes a byte or delivers a pixel, or it finds no byte and moves no register (R146, R204). -/
theorem promptStep_brings {s t : State} (h : step { s with host := [promptOp s] } = .next t) :
    t = { s with result := none, host := [] } ∨ 1 + t.stream.length ≤ t.delivered.length + s.stream.length := by
  obtain ⟨hop, hi⟩ | ⟨hop, hi⟩ := promptOp_cases s <;> rw [hop] at h
  · cases step_inv h with
    | idle hh | reset ops hh | powerOn ops hh | empty ops hh | yielded ops hh => cases hh
    | held ops hh hne => exact absurd hi hne
    | noByte ops hh hs => cases hh; exact .inl rfl
    | finished b bs ops hf hp =>
      obtain ⟨-, hs : s.stream = b :: bs, -⟩ := hf
      exact .inr (by simp [hs, Nat.add_comm])
    | byte b bs ops _ hf ht he =>
      obtain ⟨-, hs : s.stream = b :: bs, -⟩ := hf
      exact .inr (by simp [hs, stream_of_effect he, Nat.add_comm])
  · cases step_inv h with
    | idle hh | reset ops hh | powerOn ops hh | held ops hh | noByte ops hh => cases hh
    | finished b bs ops hf | byte b bs ops _ hf => cases hf.1
    | empty ops hh h0 => exact absurd h0 hi
    | yielded => exact .inr le_rfl

/-- What the host was told and meant to do before is nothing to a prompt host. -/
theorem promptRun_forgets (n : Nat) (s : State) :
    promptRun (n + 1) { s with result := none, host := [] } = promptRun (n + 1) s := rfl

/-- The end of a run is reached with no more steps than pixels delivered and bytes taken, for a step that brings neither can be left
out. -/
theorem promptRun_ended_within {n : Nat} {s t : State} {out : List Pixel} (h : promptRun n s = some (t, out)) (ht : t.ended) :
    ∃ n' t', promptRun n' s = some (t', out) ∧ t'.ended ∧ n' + t.stream.length ≤ out.length + s.stream.length := by
  induction n generalizing s out with
  | zero => cases h; exact ⟨0, t, rfl, ht, by simp⟩
  | succ n ih =>
    obtain ⟨u, out', hstep, hrun⟩ := promptRun_succ_inv h
    rw [promptRun_succ n hstep, hrun] at h
    cases h
    obtain ⟨n', t', hrun', ht', hle⟩ := ih hrun
    obtain rfl | hbrings := promptStep_brings hstep
    · cases n' with
      | zero => cases hrun'; exact ⟨0, s, rfl, ht', hle⟩
      | succ n' => exact ⟨n' + 1, t', (promptRun_forgets n' s).symm.trans hrun', ht', hle⟩
    · refine ⟨n' + 1, t', by rw [promptRun_succ n' hstep, hrun']; rfl, ht', ?_⟩
      dsimp only
      rw [List.length_append]
      omega

/-! ### Bytes enough -/

theorem oplen_le (o : Opcode) : oplen o ≤ 4 := by
  cases o <;> simp [oplen]

/-- Bytes that end inside an opcode are fewer than five (R70). -/
theorem EndsInOpcode.length_lt {l : List Byte} (h : EndsInOpcode l) : l.length < 5 := by
  match l, h with
  | [], _ => simp
  | t :: ops, h =>
    have hlt := h t ops rfl
    have hle := oplen_le (classify t)
    rw [List.length_cons]
    omega

/-- With five bytes for every position still to fill the reference loop fills them (R204). -/
theorem refLoop_enough {n : Nat} {r : RefState} {l : List Byte} (h : 5 * n ≤ l.length) : ∃ out rest, refLoop n r l = .ok (out, rest) := by
  induction n generalizing r l with
  | zero => exact ⟨[], l, rfl⟩
  | succ n ih =>
    obtain ⟨p, m, _ | k⟩ := r
    · obtain ⟨i, rest, hw, hi, rfl⟩ | ⟨hend, -⟩ := readOpcode_cases l
      · have hfive := encode_length_le hi
        rw [List.length_append] at h
        obtain ⟨out, rest', hloop⟩ := ih (r := (RefState.mk p m 0).apply i) (l := rest) (by omega)
        exact ⟨_, rest', by rw [refLoop_op n p m (readOpcode_encode hw hi rest), hloop]; rfl⟩
      · have hlt := hend.length_lt
        omega
    · obtain ⟨out, rest, hloop⟩ := ih (r := ⟨p, m, k⟩) (l := l) (by omega)
      exact ⟨p :: out, rest, by rw [refLoop_run_succ, hloop]; rfl⟩

/-- From Idle, once the pixels held are delivered, the machine follows the reference loop over the pixels owed. -/
theorem followsLoop_idle {s : State} (hp : s.phase = .parsingOp) (hb : s.opBusy = false) (howes : s.pxCount.toNat < s.pxTarget.toNat) :
    s.FollowsLoop (pre (List.replicate s.itCount.toNat s.itPx) (refLoop (owed s) ⟨s.px, s.cache, 0⟩ s.stream)) := by
  have hne : s.pxCount ≠ s.pxTarget := fun h => howes.ne (congrArg _ h)
  have hleft : s.pxCount.toNat + owed s = s.pxTarget.toNat := Nat.add_sub_cancel' howes.le
  obtain ⟨t, hdrain, ht⟩ := promptRun_drain s
  have hstep : t.InStep s.px s.cache (owed s) s.stream :=
    inStep_of_drained (e := s) (by rw [finishedCheck_owing hne]; exact ht) hp hb hleft
  exact hstep.followsLoop.prepend hdrain (by rw [ht])

/-- Settles O57: five bytes a pixel are enough for the reference loop, the machine follows it, and no step need be idle. -/
theorem enoughBytesReachFinished : Obligations.EnoughBytesReachFinished := by
  intro s hs hp hb henough
  obtain ⟨out, rest, hloop⟩ := refLoop_enough (r := ⟨s.px, s.cache, 0⟩) henough
  have hfollows := followsLoop_idle hp hb (hs.opOwes hp)
  rw [owed, hloop] at hfollows
  obtain ⟨n, u, hrun, hend, hstream, -⟩ := hfollows
  obtain ⟨hlen, used, hused, hfive, -⟩ := refLoop_reads hloop
  obtain ⟨n', t, hrun', hend', hsteps⟩ := promptRun_ended_within hrun hend
  have hpixels : (List.replicate s.itCount.toNat s.itPx ++ out).length = s.itCount.toNat + (s.pxTarget.toNat - s.pxCount.toNat) := by
    rw [List.length_append, List.length_replicate, hlen]
  refine ⟨n', t, _, hrun', hend', ?_, hpixels⟩
  rw [hpixels, hstream, hused, List.length_append] at hsteps
  omega

end Sys2Proof.Machine
end
